-- ==== Sys2Proof/Word.lean ====
section
/-! DEFINITION. The widths the spec fixes (00_scope.md R9, 30_encoding.md R70). -/

namespace Sys2Proof

/-- A Debounce Counter Table entry and the Cycle Counter: 8 bits (R9, R21, R27). -/
abbrev Byte := BitVec 8

/-- A buffer slot, the used-length `U`, `ARG` and `RDATA`: 16 bits (R9, R70, R71). -/
abbrev Half := BitVec 16

/-- The command word on the `CMD` port: 32 bits (R70, R71). -/
abbrev CmdWord := BitVec 32

end Sys2Proof
end

