-- ==== Sys2Proof/Syntax.lean ====
section
/-! DEFINITION. The commands of 30_encoding.md R76, one constructor per row of spec/opcode_table.json. -/

namespace Sys2Proof

/-- The seven commands (R76). An operand is the 16-bit `ARG`, an unsigned index (R73). CYCLE's SCAN vector is no
part of the command word: it stands on the `SCAN` port (R70, R105). -/
inductive Instr where
  /-- NOP (43_observe.md R160). -/
  | nop
  /-- CYCLE (40_sampler.md R105). -/
  | cycle
  /-- RDTBL k (43_observe.md R161). -/
  | rdtbl (k : Half)
  /-- RDBUF i (42_output_buffer.md R141). -/
  | rdbuf (i : Half)
  /-- RDUSED (42_output_buffer.md R140). -/
  | rdused
  /-- RDCYC (43_observe.md R162). -/
  | rdcyc
  /-- CLRUSED (42_output_buffer.md R142). -/
  | clrused
deriving DecidableEq, Repr

end Sys2Proof
end

