-- ==== Sys2Proof/Decode.lean ====
section
/-! DEFINITION. Decoding and encoding of the command word (30_encoding.md R71 to R73, R76 to R79). -/

namespace Sys2Proof

/-- `OP`, bits [31:28] (R71). -/
def opField (w : CmdWord) : BitVec 4 := w.extractLsb' 28 4

/-- `RSV`, bits [27:16] (R71). -/
def rsvField (w : CmdWord) : BitVec 12 := w.extractLsb' 16 12

/-- `ARG`, bits [15:0] (R71). -/
def argField (w : CmdWord) : Half := w.extractLsb' 0 16

/-- Why a word decodes as ILLEGAL: the three causes of R77. -/
inductive Illegal where
  /-- `RSV` is not 0 (R72). -/
  | rsvNotZero
  /-- `OP` is 0x7 to 0xF (R76). -/
  | reservedOp
  /-- `ARG` is not 0 on a command that takes no operand (R73). -/
  | argNotZero
deriving DecidableEq, Repr

/-- A command without an operand: its `ARG` must be 0 (R73). -/
def noOperand (arg : Half) (i : Instr) : Except Illegal Instr :=
  if arg = 0 then .ok i else .error .argNotZero

/-- The opcode map of R76, for a word whose `RSV` is 0. -/
def decodeOp (op : BitVec 4) (arg : Half) : Except Illegal Instr :=
  match op.toNat with
  | 0 => noOperand arg .nop
  | 1 => noOperand arg .cycle
  | 2 => .ok (.rdtbl arg)
  | 3 => .ok (.rdbuf arg)
  | 4 => noOperand arg .rdused
  | 5 => noOperand arg .rdcyc
  | 6 => noOperand arg .clrused
  | _ => .error .reservedOp

/-- R78's decode, total on every 32-bit word: `RSV` before `OP` before the shape of `ARG`. DEDUCED (log 11): the
range checks, which R78's text shows here, are made when the command executes, as R73 says. -/
def decode (w : CmdWord) : Except Illegal Instr :=
  if rsvField w = 0 then decodeOp (opField w) (argField w) else .error .rsvNotZero

/-- The `OP` value of each command (R76). -/
def opcode : Instr → BitVec 4
  | .nop => 0x0
  | .cycle => 0x1
  | .rdtbl _ => 0x2
  | .rdbuf _ => 0x3
  | .rdused => 0x4
  | .rdcyc => 0x5
  | .clrused => 0x6

/-- The `ARG` field of each command: its index, or 0 where it takes no operand (R73). -/
def operand : Instr → Half
  | .rdtbl k => k
  | .rdbuf i => i
  | .nop => 0
  | .cycle => 0
  | .rdused => 0
  | .rdcyc => 0
  | .clrused => 0

/-- The command word `(OP, RSV = 0, ARG)` of a command (R71, R80). -/
def encode (i : Instr) : CmdWord := opcode i ++ (0 : BitVec 12) ++ operand i

/-- The command in the low `nbits` bits of `w`, the bits above being 0. A command is always 32 bits long (R79), so
a longer one is no command. -/
def decodeTableWord (nbits w : Nat) : Option Instr :=
  if nbits ≤ 32 then (decode (BitVec.ofNat 32 (w % 2 ^ nbits))).toOption else none

end Sys2Proof
end

