-- ==== Sys2Proof/Config.lean ====
section
/-! DEFINITION. The implementation parameters of 00_scope.md R7, the quantities R10 derives from them,
the free value of 42_output_buffer.md R141, and the instance that `State.reset` carries. -/

namespace Sys2Proof

/-- The parameters of R7, fixed for the life of an instance (R8, R222). Their legal ranges are `Params.Legal`
(WellFormed.lean). -/
structure Params where
  /-- `N`: number of keys; keys are numbered 1..N. -/
  n : Nat
  /-- `B`: Output Buffer capacity in entries. -/
  b : Nat
  /-- `STEP`: cycle-counter step per CYCLE (1 normally, 2 in dual-pass mode). -/
  step : Nat
  /-- `SAMPLE_THRESHOLD`: a key is pressed when its count is strictly greater. -/
  sampleThreshold : Nat
  /-- `MAX_SAMPLES`: cycle budget of one assessment window. -/
  maxSamples : Nat
deriving DecidableEq, Repr

/-- `W = ceil(MAX_SAMPLES / STEP)`: the number of CYCLE commands in one full assessment window (R10). -/
def Params.window (p : Params) : Nat := (p.maxSamples + p.step - 1) / p.step

/-- `CMAX = MAX_SAMPLES - 1 + STEP`: the largest value the Cycle Counter takes inside a CYCLE (R10). -/
def Params.counterMax (p : Params) : Nat := p.maxSamples - 1 + p.step

/-- The instance that `State.reset` carries. SAMPLE_THRESHOLD = 110 and MAX_SAMPLES = 127 are this hardware's
values (R7). DESIGN CHOICE, unsafe (log 2): N, B and STEP are OPEN in the spec; these are the configuration of
program P1 of 95_test_vectors.md. No statement rests on them: `State.resetWith` takes any parameters. -/
def Config.params : Params where
  n := 4
  b := 4
  step := 1
  sampleThreshold := 110
  maxSamples := 127

/-- The free value RDBUF answers for a slot that holds no value: "v: any 16-bit value (a draw)" (R141,
92_eei_decisions.md D12). It is applied to the counter of draws, so that nothing ties one draw to another (log 7). -/
opaque Config.drawSlot : Nat → Half

end Sys2Proof
end

