-- ==== Sys2Proof/Machine/State.lean ====
section
/-! DEFINITION. The state of the block (10_state.md R20), its ports (30_encoding.md R70), its reset values (R33),
and the reasons a step can stop. -/

namespace Sys2Proof.Machine

/-- The response codes of R75; code 0b11 is never produced, so it has no constructor. -/
inductive RespCode where
  /-- 0b00: the command was carried out. -/
  | ok
  /-- 0b01: the word decodes to no command (R201). -/
  | illegal
  /-- 0b10: the index is outside its space (R201). -/
  | range
deriving DecidableEq, Repr

/-- One response `(RESP, RDATA, READY)` (R75). -/
structure Response where
  resp : RespCode
  rdata : Half
  /-- The source's `CycleResult`: true for `AssessmentReady`, false for `MoreDataNeeded` (R30). -/
  ready : Bool
deriving DecidableEq, Repr

/-- What the host, the one agent (00_scope.md R6), can do to the block: the actions of a run (R229). -/
inductive HostAction where
  /-- Present a word on `CMD` together with a vector on `SCAN` (R70). Bit k - 1 of `scan` is `SCAN[k]` (R74, log 5). -/
  | command (word : CmdWord) (scan : Nat)
  /-- Drive the `rst` input to a level (R220). -/
  | rst (level : Bool)
deriving DecidableEq, Repr

/-- The machine. The block's own state is `table`, `c`, `u` and `buf` (R20); the other fields are the parameters
and the ports, which the spec does not count as state. -/
structure State where
  /-- The parameters of R7, which no step changes. DESIGN CHOICE, safe (log 1): carried here, because a step takes no
  other argument. -/
  cfg : Params
  /-- `T[0..N]` (R21): the entries that are not 0x00, by rising index; an unlisted entry is 0x00 (R33, log 10). -/
  table : List Host.Cell
  /-- `C`, the Cycle Counter (R27). -/
  c : Byte
  /-- `U`, the Output Buffer used-length (R28). -/
  u : Half
  /-- `BUF[0..B-1]` (R29): the slots that hold a value, by rising index; an unlisted slot holds no value (R33, log 10). -/
  buf : List (Nat × Half)
  /-- The vector on the `SCAN` port: bit k - 1 is `SCAN[k]` (R70, R74, log 5). -/
  scan : Nat
  /-- The level of the `rst` input (R70, R220, log 4). -/
  rst : Bool
  /-- The host's actions still to come, the next one first (R58, R229, log 3). -/
  pending : List HostAction
  /-- Every response given, the newest first (R75, R229, log 6). -/
  responses : List Response
  /-- How many free values have been drawn (R141, log 7); the model's own field. -/
  draws : Nat
deriving DecidableEq, Repr

/-- The reasons a step stops the machine. -/
inductive Fault where
  /-- A CYCLE would increment a CNT of 127 (40_sampler.md R101, 60_exceptions.md R210). Raised by `execCycle` alone. Safe:
  no value is computed, and no run from reset reaches it (log 8). -/
  | cntOverflow
deriving DecidableEq, Repr

/-- The reasons an instruction is refused. -/
inductive Refusal where
  /-- The instruction has no meaning yet; raised by `exec` alone. Safe: nothing is computed. No arm raises it now. -/
  | notModelled (mnemonic : String)
deriving DecidableEq, Repr

/-- The state when reset is released (R33, R220), for any parameters: every table entry 0x00, `C` = 0, `U` = 0, no
slot holds a value. The ports' and the model's own fields are empty (DESIGN CHOICE, logs 3, 5, 6, 7). -/
def State.resetWith (p : Params) : State where
  cfg := p
  table := []
  c := 0
  u := 0
  buf := []
  scan := 0
  rst := false
  pending := []
  responses := []
  draws := 0

/-- The machine right after reset, on the instance `Config.params` (log 2). -/
def State.reset : State := State.resetWith Config.params

end Sys2Proof.Machine
end

