-- ==== Sys2Proof/Machine/Ops.lean ====
section
/-! DEFINITION. The state-access primitives of 00_scope.md R13, the response and the one error operation
(60_exceptions.md R201, R202), reset (70_reset_and_hazards.md R220), the buffer append (41_assessor.md R125) and
taking the host's next action (20_memory.md R58). -/

namespace Sys2Proof.Machine

/-! Sparse storage: a list of (index, value) pairs. -/

/-- The value listed for index `k`. -/
def cellLookup {α : Type} : List (Nat × α) → Nat → Option α
  | [], _ => none
  | (j, v) :: m, k => if k = j then some v else cellLookup m k

/-- List `v` for index `k`, in rising order. -/
def cellInsert {α : Type} (k : Nat) (v : α) : List (Nat × α) → List (Nat × α)
  | [] => [(k, v)]
  | (j, w) :: m =>
    if k < j then (k, v) :: (j, w) :: m
    else if k = j then (k, v) :: m
    else (j, w) :: cellInsert k v m

/-- Take index `k` out of the list. -/
def cellErase {α : Type} (k : Nat) : List (Nat × α) → List (Nat × α)
  | [] => []
  | (j, w) :: m => if k = j then cellErase k m else (j, w) :: cellErase k m

/-- The indices rise strictly. -/
abbrev cellsRising {α : Type} (m : List (Nat × α)) : Prop := m.Pairwise fun x y => x.1 < y.1

/-- The canonical form of the storage: indices strictly rising, and no table entry listed as 0x00, which is what an
unlisted entry reads as (log 10). -/
abbrev Memory.wf (table : List Host.Cell) (buf : List (Nat × Half)) : Prop :=
  cellsRising table ∧ (∀ e ∈ table, e.2 ≠ 0) ∧ cellsRising buf

/-! The table and the buffer (R13). -/

/-- `T[k]` (R13); 0x00 where nothing is listed (R33). -/
def readEntry (s : State) (k : Nat) : Byte := (cellLookup s.table k).getD 0

/-- `T[k] <- v` (R13). -/
def writeEntry (k : Nat) (v : Byte) (s : State) : State :=
  { s with table := if v = 0 then cellErase k s.table else cellInsert k v s.table }

/-- `BUF[i]`, or no value (R13, R29). -/
def readSlot (s : State) (i : Nat) : Option Half := cellLookup s.buf i

/-- `BUF[i] <- v` (R13). -/
def writeSlot (i : Nat) (v : Half) (s : State) : State := { s with buf := cellInsert i v s.buf }

/-- `C <- v` (R13). -/
def setCounter (v : Byte) (s : State) : State := { s with c := v }

/-- `U <- v` (R13). -/
def setUsed (v : Half) (s : State) : State := { s with u := v }

/-! Responses and errors. -/

/-- `respond(resp, rdata, ready)` (R13, R75). -/
def respond (code : RespCode) (rdata : Half) (ready : Bool) (s : State) : State :=
  { s with responses := { resp := code, rdata := rdata, ready := ready } :: s.responses }

/-- `raise ILLEGAL` and `raise RANGE` (R13): the response is `(code, 0, 0)` and nothing else changes (R202). The block
has no trap, no saved state and no return (R204). -/
def raiseError (code : RespCode) (s : State) : State := respond code 0 false s

/-- The bits of `RESP` (R75). -/
def respBits : RespCode → BitVec 2
  | .ok => 0b00
  | .illegal => 0b01
  | .range => 0b10

/-- A fresh free value (R141; log 7). -/
def drawnValue (s : State) : Half := Config.drawSlot s.draws

/-- One more free value has been drawn (log 7). -/
def countDraw (s : State) : State := { s with draws := s.draws + 1 }

/-! Reset. -/

/-- The block's state of R33: it leaves the parameters and the ports alone. -/
def resetBlock (s : State) : State := { s with table := [], c := 0, u := 0, buf := [] }

/-- Drive `rst` to a level (R220): asserting it puts the block into its reset state, and nothing changes that until it is
released (log 4). -/
def driveRst (level : Bool) (s : State) : State :=
  if level then { resetBlock s with rst := true } else { s with rst := false }

/-! Keys and the append. -/

/-- `1..N`, ascending (R14, R126). -/
def keys (n : Nat) : List Nat := List.range' 1 n

/-- `Append(k)` (R125): store `zext_16(k)` at `BUF[U]` and raise `U`, or drop silently when the buffer is full. -/
def appendKey (k : Nat) (s : State) : State :=
  if s.u.toNat < s.cfg.b then setUsed (s.u + 1) (writeSlot s.u.toNat (BitVec.ofNat 16 k) s) else s

/-! The host's next action. -/

/-- What the block finds on its ports. -/
inductive Fetched where
  /-- The host has nothing more to do: the block does nothing (R209). -/
  | idle
  /-- An action that is complete in itself, leaving this state: a level of `rst`, or a word that is not accepted. -/
  | done (s : State)
  /-- The block accepts this command word, in this state. -/
  | accepted (word : CmdWord) (s : State)
deriving DecidableEq, Repr

/-- Take the host's next action (R58). A command comes with its SCAN vector (R70). While `rst` is asserted the block
accepts no command (R220); DESIGN CHOICE, unsafe (log 4): the word is then dropped without a response. -/
def fetch (s : State) : Fetched :=
  match s.pending with
  | [] => .idle
  | .rst level :: rest => .done (driveRst level { s with pending := rest })
  | .command w scan :: rest =>
    if s.rst then .done { s with pending := rest }
    else .accepted w { s with pending := rest, scan := scan }

/-- Put a command word where the block takes its next one: at the head of the host's actions, with the present SCAN
vector and with `rst` released. -/
def placeCommand (w : CmdWord) (s : State) : State :=
  { s with pending := .command w s.scan :: s.pending, rst := false }

end Sys2Proof.Machine
end

