-- ==== Sys2Proof/Machine/Operands.lean ====
section
/-! DEFINITION. The operand forms: the index `ARG` of RDTBL and RDBUF with its range check (30_encoding.md R73, R78),
the SCAN bit of a key (R74), and the widening of reads to RDATA (20_memory.md R53). -/

namespace Sys2Proof.Machine

/-- An index operand: `zext(ARG)`, never sign-extended, scaled or shifted (R73). -/
def indexOf (arg : Half) : Nat := arg.toNat

/-- RDTBL's range check, `0 ≤ k ≤ N` (R161). -/
def inTable (s : State) (k : Nat) : Bool := k ≤ s.cfg.n

/-- RDBUF's range check, `0 ≤ i < B` (R141). -/
def inBuffer (s : State) (i : Nat) : Bool := i < s.cfg.b

/-- `SCAN[k] = 1`, for a key k in 1..N (R74). `SCAN` has no bit for key 0, and none above N. -/
def closed (s : State) (k : Nat) : Bool := 1 ≤ k && k ≤ s.cfg.n && s.scan.testBit (k - 1)

/-- `zext_16(v)`: a byte on RDATA (R53). -/
def zext16 (v : Byte) : Half := v.setWidth 16

end Sys2Proof.Machine
end

