-- ==== Sys2Proof/Machine/Observe.lean ====
section
/-! DEFINITION. The commands NOP, RDTBL and RDCYC (43_observe.md R160 to R162). -/

namespace Sys2Proof.Machine

/-- NOP (R160). -/
def execNop (s : State) : Host.Outcome State Fault Refusal := .next (respond .ok 0 false s)

/-- RDTBL k (R161). -/
def execRdtbl (k : Half) (s : State) : Host.Outcome State Fault Refusal :=
  .next (if inTable s (indexOf k) then respond .ok (zext16 (readEntry s (indexOf k))) false s else raiseError .range s)

/-- RDCYC (R162). -/
def execRdcyc (s : State) : Host.Outcome State Fault Refusal := .next (respond .ok (zext16 s.c) false s)

end Sys2Proof.Machine
end

