-- ==== Sys2Proof/Machine/OutputBuffer.lean ====
section
/-! DEFINITION. The output buffer commands RDUSED, RDBUF and CLRUSED (42_output_buffer.md R140 to R142). -/

namespace Sys2Proof.Machine

/-- RDUSED (R140): answer `U`. -/
def execRdused (s : State) : Host.Outcome State Fault Refusal := .next (respond .ok s.u false s)

/-- The answer of RDBUF for an index in range: what the slot holds, or a free value (R141, log 7). -/
def answerSlot (i : Nat) (s : State) : State :=
  match readSlot s i with
  | some v => respond .ok v false s
  | none => respond .ok (drawnValue s) false (countDraw s)

/-- RDBUF i (R141). -/
def execRdbuf (i : Half) (s : State) : Host.Outcome State Fault Refusal :=
  .next (if inBuffer s (indexOf i) then answerSlot (indexOf i) s else raiseError .range s)

/-- CLRUSED (R142): `U <- 0`; the slots keep their contents. -/
def execClrused (s : State) : Host.Outcome State Fault Refusal := .next (respond .ok 0 false (setUsed 0 s))

end Sys2Proof.Machine
end

