-- ==== Sys2Proof/Machine/Flags.lean ====
section
/-! DEFINITION. The fields CNT and LATCH of a table entry (10_state.md R21), the count step (40_sampler.md R101), the
counter step and the budget comparison (R102, R103), and the threshold comparator (41_assessor.md R122). -/

namespace Sys2Proof.Machine

/-- `T[k].CNT`, bits [6:0]: `entry & 0x7F` (R21, R122). -/
def cntOf (e : Byte) : Nat := (e &&& 0x7F).toNat

/-- `T[k].LATCH`, bit 7 (R21). -/
def latchOf (e : Byte) : Bool := e.getLsbD 7

/-- `(T[k] & 0x80) | (T[k].CNT + 1)` (R101): LATCH kept, CNT + 1. Used only where CNT is below 127. -/
def bumpEntry (e : Byte) : Byte := (e &&& 0x80) ||| ((e &&& 0x7F) + 1)

/-- The entry of a key judged pressed: CNT = 0 and LATCH = 1 (R123). -/
def latchedEntry : Byte := 0x80

/-- The entry of a key not judged pressed: fully clear (R124). -/
def clearedEntry : Byte := 0x00

/-- The threshold comparator: unsigned and strict, LATCH takes no part (R122). -/
def pressed (p : Params) (e : Byte) : Bool := p.sampleThreshold < cntOf e

/-- `C + STEP`, exact (R102). DEDUCED, safe (log 9): the sum is compared before it is stored, so the transient value at
or above MAX_SAMPLES is held in no field (R32). -/
def steppedCounter (s : State) : Nat := s.c.toNat + s.cfg.step

/-- The budget comparison: an assessment is due unless `C < MAX_SAMPLES` (R103). -/
def budgetReached (p : Params) (counter : Nat) : Bool := !(decide (counter < p.maxSamples))

end Sys2Proof.Machine
end

