-- ==== Sys2Proof/Machine/Assessor.lean ====
section
/-! DEFINITION. The assessment a CYCLE runs when its budget is reached (41_assessor.md R120 to R126). -/

namespace Sys2Proof.Machine

/-- One key's turn of the loop of R120: judge it (R122), then append and latch (R123) or clear (R124). -/
def assessKey (s : State) (k : Nat) : State :=
  if pressed s.cfg (readEntry s k) then writeEntry k latchedEntry (appendKey k s)
  else writeEntry k clearedEntry s

/-- `Assess()` (R120): restart the Cycle Counter (R121), then every key in ascending order (R126). -/
def assess (s : State) : State := (keys s.cfg.n).foldl assessKey (setCounter 0 s)

end Sys2Proof.Machine
end

