-- ==== Sys2Proof/Machine/Sampler.lean ====
section
/-! DEFINITION. The Sampler and the command CYCLE (40_sampler.md R100 to R105). -/

namespace Sys2Proof.Machine

/-- Key k is closed and its CNT is already 127: the raw-count update has no value (R101, R210). -/
def cntOverflows (s : State) (k : Nat) : Bool := closed s k && cntOf (readEntry s k) == 127

/-- One lane of the raw-count update (R101). -/
def sampleKey (s : State) (k : Nat) : State :=
  if closed s k then writeEntry k (bumpEntry (readEntry s k)) s else s

/-- The raw-count update over all lanes (R101). -/
def sampleKeys (s : State) : State := (keys s.cfg.n).foldl sampleKey s

/-- What CYCLE does after the raw-count update: step C (R102), compare (R103), assess if due (R104), respond (R105). -/
def finishCycle (s : State) : State :=
  if budgetReached s.cfg (steppedCounter s) then respond .ok 0 true (assess s)
  else respond .ok 0 false (setCounter (BitVec.ofNat 8 (steppedCounter s)) s)

/-- CYCLE (R105). The overflow test of every lane stands before the updates: the lanes are independent (R101), and a
fault leaves no state (log 8). -/
def execCycle (s : State) : Host.Outcome State Fault Refusal :=
  if (keys s.cfg.n).any (cntOverflows s) then .fault .cntOverflow else .next (finishCycle (sampleKeys s))

end Sys2Proof.Machine
end

