-- ==== Sys2Proof/Machine/Dispatch.lean ====
section
/-! DEFINITION. The meaning of every command (30_encoding.md R76), one arm per constructor. -/

namespace Sys2Proof.Machine

/-- The meaning of an accepted command; it reads the SCAN vector from the port. -/
def exec (i : Instr) (s : State) : Host.Outcome State Fault Refusal :=
  match i with
  | .nop => Sys2Proof.Machine.execNop s
  | .cycle => Sys2Proof.Machine.execCycle s
  | .rdtbl k => Sys2Proof.Machine.execRdtbl k s
  | .rdbuf j => Sys2Proof.Machine.execRdbuf j s
  | .rdused => Sys2Proof.Machine.execRdused s
  | .rdcyc => Sys2Proof.Machine.execRdcyc s
  | .clrused => Sys2Proof.Machine.execClrused s

end Sys2Proof.Machine
end

