-- ==== Sys2Proof/Machine/Step.lean ====
section
/-! DEFINITION. One step: the host's next action (20_memory.md R54, R58). -/

namespace Sys2Proof.Machine

/-- One step. An accepted word that decodes to a command has that command's meaning; any other word answers ILLEGAL
and changes nothing (R202). -/
def step (s : State) : Host.Outcome State Fault Refusal :=
  match fetch s with
  | .idle => .next s
  | .done t => .next t
  | .accepted w t =>
    match decode w with
    | .ok i => exec i t
    | .error _ => .next (raiseError .illegal t)

/-- The state `s` with the command of `w`'s low `nbits` bits as the host's next action (log 3). -/
def State.withFetchWord (s : State) (nbits w : Nat) : State := placeCommand (BitVec.ofNat 32 (w % 2 ^ nbits)) s

end Sys2Proof.Machine
end

