-- ==== Sys2Proof/WellFormed.lean ====
section
/-! DEFINITION. The checks the spec makes on data: the legal ranges of the parameters (00_scope.md R7) and the
index spaces of the operands (20_memory.md R50, R52). -/

namespace Sys2Proof

/-- The legal values of R7's table, one conjunct per row. -/
abbrev Params.Legal (p : Params) : Prop :=
  (1 ≤ p.n ∧ p.n ≤ 65535) ∧ p.b ≤ 65535 ∧ (p.step = 1 ∨ p.step = 2) ∧ p.sampleThreshold ≤ 127 ∧
    (1 ≤ p.maxSamples ∧ p.maxSamples ≤ 127)

/-- The command's index lies in its space of R50: the table has indices 0..N, the buffer 0..B-1. A command whose
index does not still has its meaning, the RANGE response (R52, R201). -/
def Instr.WellFormed (p : Params) : Instr → Bool
  | .rdtbl k => k.toNat ≤ p.n
  | .rdbuf i => i.toNat < p.b
  | .nop => true
  | .cycle => true
  | .rdused => true
  | .rdcyc => true
  | .clrused => true

end Sys2Proof
end

