-- ==== Sys2Proof/Safety.lean ====
section
/-! DEFINITION. What the claims speak of: the invariant of reachable states (10_state.md R34 and R29), the count and
the judgement of a key in numbers (40_sampler.md R101, 41_assessor.md R122), and a sequence of CYCLE commands. -/

namespace Sys2Proof.Machine

/-- The invariant (R25, R27 to R29, R34, R220). The number j of R34 is `C / STEP`, so item 2's `CNT ≤ j` reads
`CNT × STEP ≤ C`. -/
structure StateInv (s : State) : Prop where
  /-- The parameters are in the legal ranges of R7. -/
  legal : s.cfg.Legal
  /-- The storage is in its canonical form (log 10). -/
  canonical : Memory.wf s.table s.buf
  /-- Only entries 1..N are ever other than 0x00; so `T[0] = 0x00` (R25, R34 item 3). -/
  tableKeys : ∀ e ∈ s.table, 1 ≤ e.1 ∧ e.1 ≤ s.cfg.n
  /-- Only slots below B hold a value, and it is a key index in 1..N (R29). -/
  bufKeys : ∀ e ∈ s.buf, e.1 < s.cfg.b ∧ 1 ≤ e.2.toNat ∧ e.2.toNat ≤ s.cfg.n
  /-- `0 ≤ U ≤ B` (R28, R34 item 4). -/
  used : s.u.toNat ≤ s.cfg.b
  /-- Every slot below `U` holds a value (R34 item 4). -/
  valid : ∀ i < s.u.toNat, (readSlot s i).isSome
  /-- `C` is a multiple of STEP below MAX_SAMPLES (R27, R34 item 1). -/
  counter : s.cfg.step ∣ s.c.toNat ∧ s.c.toNat < s.cfg.maxSamples
  /-- No count exceeds the number of CYCLEs since the window start (R34 item 2). -/
  counts : ∀ k ∈ keys s.cfg.n, (readEntry s k).toNat % 128 * s.cfg.step ≤ s.c.toNat
  /-- While `rst` is asserted the block is in its reset state (R220). -/
  held : s.rst = true → s.table = [] ∧ s.c = 0 ∧ s.u = 0 ∧ s.buf = []

/-- The closed samples of key k in this window, the CYCLE about to run included (R22, R101, R103). -/
def countWithThis (s : State) (k : Nat) : Nat :=
  (readEntry s k).toNat % 128 + if s.scan.testBit (k - 1) then 1 else 0

/-- No closed key stands at CNT = 127: the CYCLE has a result (R101). -/
abbrev NoCountAtLimit (s : State) : Prop :=
  ∀ k ∈ keys s.cfg.n, s.scan.testBit (k - 1) = true → (readEntry s k).toNat % 128 ≠ 127

/-- The next CYCLE reaches the budget (R103). -/
abbrev BudgetDue (s : State) : Prop := s.cfg.maxSamples ≤ s.c.toNat + s.cfg.step

/-- The keys an assessment by the next CYCLE judges pressed, in ascending order (R122, R126). -/
def pressedKeys (s : State) : List Nat :=
  (keys s.cfg.n).filter fun k => decide (s.cfg.sampleThreshold < countWithThis s k)

/-- How many of them the Output Buffer has room for (R125). -/
def storedCount (s : State) : Nat := min (pressedKeys s).length (s.cfg.b - s.u.toNat)

/-- CYCLE commands one after the other, each with its own SCAN vector (R105, R107). -/
def runCycles : List Nat → State → Host.Outcome State Fault Refusal
  | [], s => .next s
  | v :: vs, s =>
    match exec .cycle { s with scan := v } with
    | .next t => runCycles vs t
    | .fault r => .fault r
    | .refused r => .refused r

/-- In how many of these SCAN vectors key k is closed (R22, R74). -/
def closedSamples (scans : List Nat) (k : Nat) : Nat := scans.countP fun v => v.testBit (k - 1)

/-- The words of a command without operand (R73, R76, R77): among the words with this `OP`, the one whose other 28 bits
are 0 decodes to the command, and every other one is illegal. -/
def NoOperandEncoding (op : Nat) (i : Instr) : Prop :=
  ∀ w : CmdWord, w.toNat / 2 ^ 28 = op →
    (w.toNat % 2 ^ 28 = 0 → decode w = .ok i) ∧ (w.toNat % 2 ^ 28 ≠ 0 → ∃ e, decode w = .error e)

/-- The words of a command with an index (R73, R76, R77): among the words with this `OP`, those whose `RSV` is 0 decode to
the command with `ARG` as its index, and every other one is illegal. -/
def IndexEncoding (op : Nat) (f : Half → Instr) : Prop :=
  ∀ w : CmdWord, w.toNat / 2 ^ 28 = op →
    (w.toNat / 2 ^ 16 % 2 ^ 12 = 0 → decode w = .ok (f (BitVec.ofNat 16 w.toNat))) ∧
      (w.toNat / 2 ^ 16 % 2 ^ 12 ≠ 0 → ∃ e, decode w = .error e)

/-- The illegal words of R77. -/
abbrev IllegalWord (w : CmdWord) : Prop :=
  7 ≤ w.toNat / 2 ^ 28 ∨ w.toNat / 2 ^ 16 % 2 ^ 12 ≠ 0 ∨
    (w.toNat / 2 ^ 28 ∈ [0, 1, 4, 5, 6] ∧ w.toNat % 2 ^ 16 ≠ 0)

/-- The observation of a run (R229): its responses, the first one first, and the final state of R20. -/
structure Observation where
  responses : List Response
  table : List Host.Cell
  c : Byte
  u : Half
  buf : List (Nat × Half)
deriving DecidableEq, Repr

/-- What a run that has come to this state lets its observer see (R229, log 6). -/
def observation (s : State) : Observation where
  responses := s.responses.reverse
  table := s.table
  c := s.c
  u := s.u
  buf := s.buf

/-- The response that an answer added, if it added exactly one (R70). -/
def answered (s t : State) (r : Response) : Prop := t.responses = r :: s.responses

end Sys2Proof.Machine
end

