-- ==== Sys2Proof/Certificates/Slice0/Obligations.lean ====
section
/-! DEFINITION. The statements for the provers. Each docstring names the rule of spec/ it formalises. The parameters stand
in the state, so a statement for every state is one for every N, B, STEP, SAMPLE_THRESHOLD and MAX_SAMPLES. -/

open Sys2Proof Sys2Proof.Machine

/-! Encoding. -/

/-- No bit of an encoding is dropped: decoding the word of any command, with any index, gives that command (R71, R73, R76,
R78). -/
def Obligations.DecodeOfEncodeIsTheCommand : Prop := ∀ i : Instr, decode (encode i) = .ok i

/-- Each command has one word: a word that decodes to a command is the word of that command (R71 to R73, R76). -/
def Obligations.EveryDecodedWordIsItsEncoding : Prop := ∀ (w : CmdWord) (i : Instr), decode w = .ok i → encode i = w

/-- R77: the illegal words are those with a reserved `OP`, those whose `RSV` is not 0, and those of a command without
operand whose `ARG` is not 0; such a word answers ILLEGAL and changes no state. -/
def Obligations.ExactlyTheIllegalWordsAreRejected : Prop :=
  ∀ w : CmdWord, ((∃ e, decode w = .error e) ↔ IllegalWord w) ∧
    ∀ (s : State) (v : Nat) (rest : List HostAction),
      s.rst = false → s.pending = .command w v :: rest → IllegalWord w →
        step s = .next { s with pending := rest, scan := v, responses := ⟨.illegal, 0, false⟩ :: s.responses }

/-- The words of R80's table, and two of L2-A's illegal words. -/
def Obligations.ListedWordsDecode : Prop :=
  decode 0x00000000 = .ok .nop ∧ decode 0x10000000 = .ok .cycle ∧ decode 0x20000004 = .ok (.rdtbl 4) ∧
    decode 0x30000001 = .ok (.rdbuf 1) ∧ decode 0x40000000 = .ok .rdused ∧ decode 0x50000000 = .ok .rdcyc ∧
    decode 0x60000000 = .ok .clrused ∧ decode 0x70000000 = .error .reservedOp ∧ decode 0x20010100 = .error .rsvNotZero

/-! One step. -/

/-- A step runs the decoded command (R54, R58, R70): with `rst` released, the host's next action is taken off, its SCAN
vector is on the port, and the answer is the command's meaning in that state. -/
def Obligations.StepRunsTheDecodedCommand : Prop :=
  ∀ (s : State) (w : CmdWord) (v : Nat) (rest : List HostAction) (i : Instr),
    s.rst = false → s.pending = .command w v :: rest → decode w = .ok i →
      step s = exec i { s with pending := rest, scan := v }

/-- R202: an error response is `(code, 0, 0)` and no state changes, for ILLEGAL words and for the two RANGE errors. (The
port `scan` carries the word's vector; nothing samples it.) -/
def Obligations.ErrorResponsesChangeNothing : Prop :=
  (∀ (s : State) (w : CmdWord) (v : Nat) (rest : List HostAction) (e : Illegal),
      s.rst = false → s.pending = .command w v :: rest → decode w = .error e →
        step s = .next { s with pending := rest, scan := v, responses := ⟨.illegal, 0, false⟩ :: s.responses }) ∧
    (∀ (s : State) (k : Half), s.cfg.n < k.toNat →
        exec (.rdtbl k) s = .next { s with responses := ⟨.range, 0, false⟩ :: s.responses }) ∧
    (∀ (s : State) (i : Half), s.cfg.b ≤ i.toNat →
        exec (.rdbuf i) s = .next { s with responses := ⟨.range, 0, false⟩ :: s.responses })

/-- The block does nothing between commands: with no action of the host left, a step changes nothing (R209). That a step
exists then is the model's choice (log 3). -/
def Obligations.IdleStepChangesNothing : Prop := ∀ s : State, s.pending = [] → step s = .next s

/-- R220: `rst` asserted and released, from any state and any level of `rst`, leaves every table entry 0x00, `C` = 0, `U` = 0
and no slot with a value; the parameters stay (R33). -/
def Obligations.ResetPulseLeavesResetState : Prop :=
  ∀ (s : State) (rest : List HostAction), s.pending = .rst true :: .rst false :: rest →
    ∃ t, Host.Core.run Sys2Proof.core 2 s = .next t ∧
      (∀ k, readEntry t k = 0) ∧ t.c = 0 ∧ t.u = 0 ∧ (∀ i, readSlot t i = none) ∧
      t = { s with table := t.table, c := t.c, u := t.u, buf := t.buf, rst := false, pending := rest }

/-- While `rst` is asserted the block accepts no command (R220). That the word is dropped without a response is the model's
choice (log 4). -/
def Obligations.AssertedResetAcceptsNoCommand : Prop :=
  ∀ (s : State) (w : CmdWord) (v : Nat) (rest : List HostAction),
    s.rst = true → s.pending = .command w v :: rest → step s = .next { s with pending := rest }

/-- R33: the values after reset, for any parameters. -/
def Obligations.ResetHoldsTheStatedValues : Prop :=
  ∀ p : Params, (∀ k, readEntry (State.resetWith p) k = 0x00) ∧ (State.resetWith p).c = 0 ∧
    (State.resetWith p).u = 0 ∧ (∀ i, readSlot (State.resetWith p) i = none) ∧ (State.resetWith p).cfg = p

/-! The read commands, NOP and CLRUSED: each statement gives the whole next state, so it is the frame too. -/

/-- R160: NOP. -/
def Obligations.NopAnswersOkOnly : Prop :=
  NoOperandEncoding 0 .nop ∧
    ∀ s : State, exec .nop s = .next { s with responses := ⟨.ok, 0, false⟩ :: s.responses }

/-- R161: RDTBL, in range, out of range, and of the reserved entry 0. -/
def Obligations.RdtblAnswersTheEntry : Prop :=
  IndexEncoding 2 .rdtbl ∧
    (∀ (s : State) (k : Half), k.toNat ≤ s.cfg.n →
      exec (.rdtbl k) s =
        .next { s with responses := ⟨.ok, BitVec.ofNat 16 (readEntry s k.toNat).toNat, false⟩ :: s.responses }) ∧
    (∀ (s : State) (k : Half), s.cfg.n < k.toNat →
      exec (.rdtbl k) s = .next { s with responses := ⟨.range, 0, false⟩ :: s.responses }) ∧
    (∀ s : State, StateInv s → exec (.rdtbl 0) s = .next { s with responses := ⟨.ok, 0, false⟩ :: s.responses })

/-- R162: RDCYC, and the values it can answer. -/
def Obligations.RdcycAnswersTheCounter : Prop :=
  NoOperandEncoding 5 .rdcyc ∧
    (∀ s : State, exec .rdcyc s =
      .next { s with responses := ⟨.ok, BitVec.ofNat 16 s.c.toNat, false⟩ :: s.responses }) ∧
    ∀ s : State, StateInv s → ∃ j, s.c.toNat = j * s.cfg.step ∧ j * s.cfg.step < s.cfg.maxSamples

/-- R140: RDUSED, and its corner cases: 0 after reset (the reset state, and `rst` asserted and released in any state) and after
CLRUSED; B where the buffer is full, and B again after a CYCLE, whose appends are then dropped. -/
def Obligations.RdusedAnswersTheUsedLength : Prop :=
  NoOperandEncoding 4 .rdused ∧
    (∀ s : State, exec .rdused s = .next { s with responses := ⟨.ok, s.u, false⟩ :: s.responses }) ∧
    (∀ p : Params, exec .rdused (State.resetWith p) =
      .next { State.resetWith p with responses := [⟨.ok, 0, false⟩] }) ∧
    (∀ (s : State) (rest : List HostAction), s.pending = .rst true :: .rst false :: rest →
      ∃ t, Host.Core.run Sys2Proof.core 2 s = .next t ∧
        exec .rdused t = .next { t with responses := ⟨.ok, 0, false⟩ :: t.responses }) ∧
    (∀ s t : State, exec .clrused s = .next t →
      exec .rdused t = .next { t with responses := ⟨.ok, 0, false⟩ :: t.responses }) ∧
    ∀ s : State, s.u.toNat = s.cfg.b →
      exec .rdused s = .next { s with responses := ⟨.ok, BitVec.ofNat 16 s.cfg.b, false⟩ :: s.responses } ∧
        ∀ t, exec .cycle s = .next t →
          exec .rdused t = .next { t with responses := ⟨.ok, BitVec.ofNat 16 s.cfg.b, false⟩ :: t.responses }

/-- R141: RDBUF of a slot that holds a value (stale or not), of one that holds none, and out of range. For an empty slot
the answer is some 16-bit value, of which nothing is known (log 7); `draws` is the model's own counter of such values. -/
def Obligations.RdbufAnswersTheSlot : Prop :=
  IndexEncoding 3 .rdbuf ∧
    (∀ (s : State) (i v : Half), i.toNat < s.cfg.b → readSlot s i.toNat = some v →
      exec (.rdbuf i) s = .next { s with responses := ⟨.ok, v, false⟩ :: s.responses }) ∧
    (∀ (s : State) (i : Half), i.toNat < s.cfg.b → readSlot s i.toNat = none →
      ∃ v, exec (.rdbuf i) s =
        .next { s with draws := s.draws + 1, responses := ⟨.ok, v, false⟩ :: s.responses }) ∧
    ∀ (s : State) (i : Half), s.cfg.b ≤ i.toNat →
      exec (.rdbuf i) s = .next { s with responses := ⟨.range, 0, false⟩ :: s.responses }

/-- R142: CLRUSED writes `U` only; the slots keep their contents. -/
def Obligations.ClrusedResetsTheUsedLengthOnly : Prop :=
  NoOperandEncoding 6 .clrused ∧
    ∀ s : State, exec .clrused s = .next { s with u := 0, responses := ⟨.ok, 0, false⟩ :: s.responses }

/-- The valid region of the buffer (R34 item 4, R143): in a state that meets the invariant, RDBUF of a slot below `U`
answers a key index in 1..N. -/
def Obligations.ValidSlotsAnswerKeyIndices : Prop :=
  ∀ (s : State) (i : Half), StateInv s → i.toNat < s.u.toNat →
    ∃ v : Half, 1 ≤ v.toNat ∧ v.toNat ≤ s.cfg.n ∧
      exec (.rdbuf i) s = .next { s with responses := ⟨.ok, v, false⟩ :: s.responses }

/-! CYCLE. -/

/-- The encoding of CYCLE, and the raw-count update and counter step of a CYCLE that does not reach the budget (R101 to
R103, R105): each closed key's CNT rises by one and its LATCH is kept, no other entry changes, `C` rises by STEP, READY is 0,
and nothing else changes. -/
def Obligations.CycleBelowBudgetCountsSamples : Prop :=
  NoOperandEncoding 1 .cycle ∧
    ∀ s : State, s.cfg.Legal → NoCountAtLimit s → ¬BudgetDue s →
      ∃ t, exec .cycle s = .next t ∧
        (∀ k, 1 ≤ k → k ≤ s.cfg.n → s.scan.testBit (k - 1) = true →
          (readEntry t k).toNat % 128 = (readEntry s k).toNat % 128 + 1 ∧
            (readEntry t k).toNat / 128 = (readEntry s k).toNat / 128) ∧
        (∀ k, 1 ≤ k → k ≤ s.cfg.n → s.scan.testBit (k - 1) = false → readEntry t k = readEntry s k) ∧
        (∀ k, (k = 0 ∨ s.cfg.n < k) → readEntry t k = readEntry s k) ∧
        t.c.toNat = s.c.toNat + s.cfg.step ∧
        t = { s with table := t.table, c := t.c, responses := ⟨.ok, 0, false⟩ :: s.responses }

/-- The table after a CYCLE that reaches the budget (R103, R104, R120 to R124): a key whose count, this CYCLE's sample
included, is strictly greater than SAMPLE_THRESHOLD gets 0x80, every other key 0x00, whatever its LATCH was; entries outside
1..N stay; `C` is 0 and READY is 1. -/
def Obligations.AssessingCycleRewritesTheTable : Prop :=
  ∀ s : State, NoCountAtLimit s → BudgetDue s →
    ∃ t, exec .cycle s = .next t ∧
      (∀ k, 1 ≤ k → k ≤ s.cfg.n →
        readEntry t k = if s.cfg.sampleThreshold < countWithThis s k then 0x80 else 0x00) ∧
      (∀ k, (k = 0 ∨ s.cfg.n < k) → readEntry t k = readEntry s k) ∧
      t.c = 0 ∧
      t = { s with table := t.table, c := t.c, u := t.u, buf := t.buf,
                   responses := ⟨.ok, 0, true⟩ :: s.responses }

/-- The Output Buffer after a CYCLE that reaches the budget (R125, R126): the pressed keys, in strictly ascending order, stand
from `BUF[U]` on, as far as there is room; `U` rises by as many; every other slot is as before. -/
def Obligations.AssessingCycleAppendsPressedKeys : Prop :=
  ∀ s : State, s.cfg.Legal → NoCountAtLimit s → BudgetDue s →
    (pressedKeys s).Pairwise (· < ·) ∧
      (∀ k, k ∈ pressedKeys s ↔ 1 ≤ k ∧ k ≤ s.cfg.n ∧ s.cfg.sampleThreshold < countWithThis s k) ∧
      ∃ t, exec .cycle s = .next t ∧
        t.u.toNat = s.u.toNat + storedCount s ∧
        (∀ i < storedCount s, ∃ k, (pressedKeys s)[i]? = some k ∧
          ∃ v, readSlot t (s.u.toNat + i) = some v ∧ v.toNat = k) ∧
        (∀ i, (i < s.u.toNat ∨ s.u.toNat + storedCount s ≤ i) → readSlot t i = readSlot s i)

/-- A full buffer drops every append silently, and the table is rewritten all the same (R123, R125). -/
def Obligations.FullBufferDropsSilently : Prop :=
  ∀ s : State, NoCountAtLimit s → BudgetDue s → s.cfg.b ≤ s.u.toNat →
    ∃ t, exec .cycle s = .next t ∧ t.u = s.u ∧ t.buf = s.buf ∧
      t.responses = ⟨.ok, 0, true⟩ :: s.responses ∧
      ∀ k, 1 ≤ k → k ≤ s.cfg.n → s.cfg.sampleThreshold < countWithThis s k → readEntry t k = 0x80

/-- An assessment in which no count exceeds the threshold appends nothing and clears every entry of 1..N; when the buffer is
empty it stays empty (R124, R128). -/
def Obligations.AssessmentWithoutPressAppendsNothing : Prop :=
  ∀ s : State, NoCountAtLimit s → BudgetDue s →
    (∀ k, 1 ≤ k → k ≤ s.cfg.n → countWithThis s k ≤ s.cfg.sampleThreshold) →
      ∃ t, exec .cycle s = .next t ∧ t.u = s.u ∧ t.buf = s.buf ∧ ∀ k, 1 ≤ k → k ≤ s.cfg.n → readEntry t k = 0x00

/-- CYCLE stops exactly where the spec says the model records a fault: a closed key stands at CNT = 127 (R101, R210). -/
def Obligations.CycleFaultsExactlyOnCountOverflow : Prop :=
  ∀ s : State, exec .cycle s = .fault .cntOverflow ↔
    ∃ k, 1 ≤ k ∧ k ≤ s.cfg.n ∧ s.scan.testBit (k - 1) = true ∧ (readEntry s k).toNat % 128 = 127

/-- LATCH takes no part in an assessment (R24, R127): two states that differ in LATCH bits only agree after it, on every entry
of 1..N and on everything else. -/
def Obligations.LatchDoesNotFeedBack : Prop :=
  ∀ (s s' t : State), s' = { s with table := s'.table } →
    (∀ k, (readEntry s' k).toNat % 128 = (readEntry s k).toNat % 128) → BudgetDue s → exec .cycle s = .next t →
      ∃ t', exec .cycle s' = .next t' ∧ t' = { t with table := t'.table } ∧
        ∀ k, 1 ≤ k → k ≤ s.cfg.n → readEntry t' k = readEntry t k

/-- R108: no count at an assessment exceeds W, so where W does not exceed SAMPLE_THRESHOLD a CYCLE never reports a key; this
hardware's constants in dual-pass mode are such a case. -/
def Obligations.WindowTooShortReportsNoPress : Prop :=
  (∀ s : State, StateInv s → ∀ k, 1 ≤ k → k ≤ s.cfg.n → countWithThis s k ≤ s.cfg.window) ∧
    (∀ s : State, StateInv s → s.cfg.window ≤ s.cfg.sampleThreshold →
      ∃ t, exec .cycle s = .next t ∧ t.u = s.u ∧ t.buf = s.buf ∧
        (BudgetDue s → ∀ k, 1 ≤ k → k ≤ s.cfg.n → readEntry t k = 0x00)) ∧
    ∀ p : Params, p.step = 2 → p.maxSamples = 127 → p.sampleThreshold = 110 →
      p.window = 64 ∧ p.window ≤ p.sampleThreshold

/-- SCAN has bits for keys 1..N only, and only CYCLE looks at them (R74). -/
def Obligations.ScanMattersToCycleAtKeysOnly : Prop :=
  (∀ (i : Instr) (s t : State) (v : Nat), i ≠ .cycle → exec i s = .next t →
      exec i { s with scan := v } = .next { t with scan := v }) ∧
    ∀ (s t : State) (v : Nat), (∀ k, 1 ≤ k → k ≤ s.cfg.n → v.testBit (k - 1) = s.scan.testBit (k - 1)) →
      exec .cycle s = .next t → exec .cycle { s with scan := v } = .next { t with scan := v }

/-! A whole window. A block whose `rst` is asserted accepts no command (R220), so `rst` is released. -/

/-- R107: from `C` = 0 the window has exactly W CYCLEs, W - 1 with READY = 0 and then one with READY = 1, whatever their SCAN
vectors; CYCLE number j leaves `C = j × STEP` before that and 0 then. W is 127 and 64 with this hardware's constants. -/
def Obligations.WindowHasExactlyWCycles : Prop :=
  (∀ (s : State) (scans : List Nat), StateInv s → s.rst = false → s.c = 0 → scans.length < s.cfg.window →
      ∃ t, runCycles scans s = .next t ∧ t.c.toNat = scans.length * s.cfg.step ∧
        t.responses = List.replicate scans.length ⟨.ok, 0, false⟩ ++ s.responses) ∧
    (∀ (s : State) (scans : List Nat), StateInv s → s.rst = false → s.c = 0 → scans.length = s.cfg.window →
      ∃ t, runCycles scans s = .next t ∧ t.c = 0 ∧
        t.responses = ⟨.ok, 0, true⟩ :: (List.replicate (s.cfg.window - 1) ⟨.ok, 0, false⟩ ++ s.responses)) ∧
    (∀ p : Params, p.maxSamples = 127 → p.step = 1 → p.window = 127) ∧
    ∀ p : Params, p.maxSamples = 127 → p.step = 2 → p.window = 64

/-- R22 and R23: in a window that is not over, CNT is the number of closed samples since its start, and LATCH is as it was. -/
def Obligations.CountIsClosedSamplesOfTheWindow : Prop :=
  ∀ (s : State) (scans : List Nat), StateInv s → s.rst = false → s.c = 0 → scans.length < s.cfg.window →
    ∃ t, runCycles scans s = .next t ∧ t.u = s.u ∧ t.buf = s.buf ∧
      ∀ k, 1 ≤ k → k ≤ s.cfg.n →
        (readEntry t k).toNat % 128 = closedSamples scans k ∧
          (readEntry t k).toNat / 128 = (readEntry s k).toNat / 128

/-- R22, R122 to R124, R127, R128: at the end of a full window, key k's entry is 0x80 when it was closed in more than
SAMPLE_THRESHOLD of the window's CYCLEs, consecutive or not, and 0x00 otherwise, whatever the table held at the start. -/
def Obligations.WindowJudgesByItsClosedSamples : Prop :=
  ∀ (s : State) (scans : List Nat), StateInv s → s.rst = false → s.c = 0 → scans.length = s.cfg.window →
    ∃ t, runCycles scans s = .next t ∧ t.c = 0 ∧
      ∀ k, 1 ≤ k → k ≤ s.cfg.n →
        readEntry t k = if s.cfg.sampleThreshold < closedSamples scans k then 0x80 else 0x00

/-! Rules over all commands. -/

/-- R75: every command adds exactly one response; READY is 1 exactly when the command is a CYCLE that assesses; RDATA is 0 for
NOP, CYCLE, CLRUSED and every error; the codes are 0b00, 0b01 and 0b10. -/
def Obligations.ResponsesFollowTheirFormat : Prop :=
  (∀ (i : Instr) (s t : State), exec i s = .next t →
      ∃ r, answered s t r ∧ (r.ready = true ↔ i = .cycle ∧ BudgetDue s) ∧
        ((i = .nop ∨ i = .cycle ∨ i = .clrused ∨ r.resp ≠ .ok) → r.rdata = 0)) ∧
    respBits .ok = 0b00 ∧ respBits .illegal = 0b01 ∧ respBits .range = 0b10 ∧ ∀ r, respBits r ≠ 0b11

/-- The commands with an error response (R201): of the decoded commands only RDTBL and RDBUF answer one, it is RANGE, and its
cause is the index; every other command answers OK. -/
def Obligations.OnlyOutOfRangeIndexesErr : Prop :=
  ∀ (i : Instr) (s t : State), exec i s = .next t →
    ∃ r, answered s t r ∧
      (r.resp = .ok ↔ i.WellFormed s.cfg = true) ∧ (r.resp = .range ↔ i.WellFormed s.cfg = false)

/-- R70: an accepted word, whatever it is, takes itself off the host's actions and yields exactly one response, if the step
answers a next state. -/
def Obligations.EachAcceptedWordYieldsOneResponse : Prop :=
  ∀ (s t : State) (w : CmdWord) (v : Nat) (rest : List HostAction),
    s.rst = false → s.pending = .command w v :: rest → step s = .next t →
      t.pending = rest ∧ t.rst = false ∧ ∃ r, answered s t r

/-- The writers of the table and of `C` (R25 to R27): no command but CYCLE changes either, and CYCLE changes no entry outside
1..N. -/
def Obligations.OnlyCycleWritesTableAndCounter : Prop :=
  ∀ (i : Instr) (s t : State), exec i s = .next t →
    (i ≠ .cycle → t.table = s.table ∧ t.c = s.c) ∧ ∀ k, (k = 0 ∨ s.cfg.n < k) → readEntry t k = readEntry s k

/-- The writers of the Output Buffer (R28, R29, R224): a command whose READY is 0 changes no slot, and none but CLRUSED then
changes `U`. -/
def Obligations.OnlyAssessmentsWriteTheBuffer : Prop :=
  ∀ (i : Instr) (s t : State) (r : Response), exec i s = .next t → answered s t r → r.ready = false →
    t.buf = s.buf ∧ (i ≠ .clrused → t.u = s.u)

/-- The block never clears the buffer itself (R144, R29): no command empties a slot, and none but CLRUSED lowers `U`. -/
def Obligations.OnlyClrusedLowersTheUsedLength : Prop :=
  ∀ (i : Instr) (s t : State), s.cfg.Legal → exec i s = .next t →
    (∀ j, (readSlot s j).isSome = true → (readSlot t j).isSome = true) ∧
      (i ≠ .clrused → s.u.toNat ≤ t.u.toNat)

/-- R23: LATCH is written only by an assessment: a command whose READY is 0 keeps it for every entry. -/
def Obligations.LatchIsWrittenByAssessmentsOnly : Prop :=
  ∀ (i : Instr) (s t : State) (r : Response), exec i s = .next t → answered s t r → r.ready = false →
    ∀ k, (readEntry t k).toNat / 128 = (readEntry s k).toNat / 128

/-- R8: no step changes a parameter. -/
def Obligations.NoStepChangesTheParameters : Prop := ∀ s t : State, step s = .next t → t.cfg = s.cfg

/-- Every step keeps the storage in its canonical form (log 10), whatever else the state holds. -/
def Obligations.StepKeepsCanonicalStorage : Prop :=
  ∀ s t : State, Memory.wf s.table s.buf → step s = .next t → Memory.wf t.table t.buf

/-! The invariant of R34. -/

/-- The reset state of any legal instance meets the invariant (R33, R34). -/
def Obligations.ResetMeetsTheInvariant : Prop := ∀ p : Params, p.Legal → StateInv (State.resetWith p)

/-- Every step keeps the invariant (R34 items 1 to 4, R25, R27 to R29). -/
def Obligations.StepKeepsTheInvariant : Prop := ∀ s t : State, StateInv s → step s = .next t → StateInv t

/-- No step from a state that meets the invariant stops: every command word, illegal ones among them, is answered, and the
fault CntOverflow is not reached (R34 item 2, R101, R210). -/
def Obligations.NoStepStopsUnderTheInvariant : Prop := ∀ s : State, StateInv s → ∃ t, step s = .next t

/-- A run (R70, R229): from a state that meets the invariant, with `rst` released, any sequence of command words is carried out
to its end, with one response for each word. -/
def Obligations.RunAnswersEveryCommand : Prop :=
  ∀ s : State, StateInv s → s.rst = false → (∀ a ∈ s.pending, ∃ w v, a = .command w v) →
    ∃ t, Host.Core.run Sys2Proof.core s.pending.length s = .next t ∧ t.pending = [] ∧ StateInv t ∧
      (observation t).responses.length = (observation s).responses.length + s.pending.length
end

