-- ==== Sys2Proof/Laws/State.lean ====
section
/-! SUPPORT. One lemma per field per update of the state, and how the two reads see each update. -/

namespace Sys2Proof.Machine

variable (s : State)

/-! writeEntry -/

@[simp] theorem writeEntry_cfg (k : Nat) (v : Byte) : (writeEntry k v s).cfg = s.cfg := rfl
@[simp] theorem writeEntry_table (k : Nat) (v : Byte) : (writeEntry k v s).table = if v = 0 then cellErase k s.table else cellInsert k v s.table := rfl
@[simp] theorem writeEntry_c (k : Nat) (v : Byte) : (writeEntry k v s).c = s.c := rfl
@[simp] theorem writeEntry_u (k : Nat) (v : Byte) : (writeEntry k v s).u = s.u := rfl
@[simp] theorem writeEntry_buf (k : Nat) (v : Byte) : (writeEntry k v s).buf = s.buf := rfl
@[simp] theorem writeEntry_scan (k : Nat) (v : Byte) : (writeEntry k v s).scan = s.scan := rfl
@[simp] theorem writeEntry_rst (k : Nat) (v : Byte) : (writeEntry k v s).rst = s.rst := rfl
@[simp] theorem writeEntry_pending (k : Nat) (v : Byte) : (writeEntry k v s).pending = s.pending := rfl
@[simp] theorem writeEntry_responses (k : Nat) (v : Byte) : (writeEntry k v s).responses = s.responses := rfl
@[simp] theorem writeEntry_draws (k : Nat) (v : Byte) : (writeEntry k v s).draws = s.draws := rfl

/-! writeSlot -/

@[simp] theorem writeSlot_cfg (i : Nat) (v : Half) : (writeSlot i v s).cfg = s.cfg := rfl
@[simp] theorem writeSlot_table (i : Nat) (v : Half) : (writeSlot i v s).table = s.table := rfl
@[simp] theorem writeSlot_c (i : Nat) (v : Half) : (writeSlot i v s).c = s.c := rfl
@[simp] theorem writeSlot_u (i : Nat) (v : Half) : (writeSlot i v s).u = s.u := rfl
@[simp] theorem writeSlot_buf (i : Nat) (v : Half) : (writeSlot i v s).buf = cellInsert i v s.buf := rfl
@[simp] theorem writeSlot_scan (i : Nat) (v : Half) : (writeSlot i v s).scan = s.scan := rfl
@[simp] theorem writeSlot_rst (i : Nat) (v : Half) : (writeSlot i v s).rst = s.rst := rfl
@[simp] theorem writeSlot_pending (i : Nat) (v : Half) : (writeSlot i v s).pending = s.pending := rfl
@[simp] theorem writeSlot_responses (i : Nat) (v : Half) : (writeSlot i v s).responses = s.responses := rfl
@[simp] theorem writeSlot_draws (i : Nat) (v : Half) : (writeSlot i v s).draws = s.draws := rfl

/-! setCounter -/

@[simp] theorem setCounter_cfg (v : Byte) : (setCounter v s).cfg = s.cfg := rfl
@[simp] theorem setCounter_table (v : Byte) : (setCounter v s).table = s.table := rfl
@[simp] theorem setCounter_c (v : Byte) : (setCounter v s).c = v := rfl
@[simp] theorem setCounter_u (v : Byte) : (setCounter v s).u = s.u := rfl
@[simp] theorem setCounter_buf (v : Byte) : (setCounter v s).buf = s.buf := rfl
@[simp] theorem setCounter_scan (v : Byte) : (setCounter v s).scan = s.scan := rfl
@[simp] theorem setCounter_rst (v : Byte) : (setCounter v s).rst = s.rst := rfl
@[simp] theorem setCounter_pending (v : Byte) : (setCounter v s).pending = s.pending := rfl
@[simp] theorem setCounter_responses (v : Byte) : (setCounter v s).responses = s.responses := rfl
@[simp] theorem setCounter_draws (v : Byte) : (setCounter v s).draws = s.draws := rfl

/-! setUsed -/

@[simp] theorem setUsed_cfg (v : Half) : (setUsed v s).cfg = s.cfg := rfl
@[simp] theorem setUsed_table (v : Half) : (setUsed v s).table = s.table := rfl
@[simp] theorem setUsed_c (v : Half) : (setUsed v s).c = s.c := rfl
@[simp] theorem setUsed_u (v : Half) : (setUsed v s).u = v := rfl
@[simp] theorem setUsed_buf (v : Half) : (setUsed v s).buf = s.buf := rfl
@[simp] theorem setUsed_scan (v : Half) : (setUsed v s).scan = s.scan := rfl
@[simp] theorem setUsed_rst (v : Half) : (setUsed v s).rst = s.rst := rfl
@[simp] theorem setUsed_pending (v : Half) : (setUsed v s).pending = s.pending := rfl
@[simp] theorem setUsed_responses (v : Half) : (setUsed v s).responses = s.responses := rfl
@[simp] theorem setUsed_draws (v : Half) : (setUsed v s).draws = s.draws := rfl

/-! respond -/

@[simp] theorem respond_cfg (r : RespCode) (d : Half) (b : Bool) : (respond r d b s).cfg = s.cfg := rfl
@[simp] theorem respond_table (r : RespCode) (d : Half) (b : Bool) : (respond r d b s).table = s.table := rfl
@[simp] theorem respond_c (r : RespCode) (d : Half) (b : Bool) : (respond r d b s).c = s.c := rfl
@[simp] theorem respond_u (r : RespCode) (d : Half) (b : Bool) : (respond r d b s).u = s.u := rfl
@[simp] theorem respond_buf (r : RespCode) (d : Half) (b : Bool) : (respond r d b s).buf = s.buf := rfl
@[simp] theorem respond_scan (r : RespCode) (d : Half) (b : Bool) : (respond r d b s).scan = s.scan := rfl
@[simp] theorem respond_rst (r : RespCode) (d : Half) (b : Bool) : (respond r d b s).rst = s.rst := rfl
@[simp] theorem respond_pending (r : RespCode) (d : Half) (b : Bool) : (respond r d b s).pending = s.pending := rfl
@[simp] theorem respond_responses (r : RespCode) (d : Half) (b : Bool) : (respond r d b s).responses = { resp := r, rdata := d, ready := b } :: s.responses := rfl
@[simp] theorem respond_draws (r : RespCode) (d : Half) (b : Bool) : (respond r d b s).draws = s.draws := rfl

/-! countDraw -/

@[simp] theorem countDraw_cfg : (countDraw s).cfg = s.cfg := rfl
@[simp] theorem countDraw_table : (countDraw s).table = s.table := rfl
@[simp] theorem countDraw_c : (countDraw s).c = s.c := rfl
@[simp] theorem countDraw_u : (countDraw s).u = s.u := rfl
@[simp] theorem countDraw_buf : (countDraw s).buf = s.buf := rfl
@[simp] theorem countDraw_scan : (countDraw s).scan = s.scan := rfl
@[simp] theorem countDraw_rst : (countDraw s).rst = s.rst := rfl
@[simp] theorem countDraw_pending : (countDraw s).pending = s.pending := rfl
@[simp] theorem countDraw_responses : (countDraw s).responses = s.responses := rfl
@[simp] theorem countDraw_draws : (countDraw s).draws = s.draws + 1 := rfl

/-! resetBlock -/

@[simp] theorem resetBlock_cfg : (resetBlock s).cfg = s.cfg := rfl
@[simp] theorem resetBlock_table : (resetBlock s).table = [] := rfl
@[simp] theorem resetBlock_c : (resetBlock s).c = 0 := rfl
@[simp] theorem resetBlock_u : (resetBlock s).u = 0 := rfl
@[simp] theorem resetBlock_buf : (resetBlock s).buf = [] := rfl
@[simp] theorem resetBlock_scan : (resetBlock s).scan = s.scan := rfl
@[simp] theorem resetBlock_rst : (resetBlock s).rst = s.rst := rfl
@[simp] theorem resetBlock_pending : (resetBlock s).pending = s.pending := rfl
@[simp] theorem resetBlock_responses : (resetBlock s).responses = s.responses := rfl
@[simp] theorem resetBlock_draws : (resetBlock s).draws = s.draws := rfl

/-! The reads look at `table` and `buf` alone, and a key's SCAN bit at `cfg` and `scan`. -/

@[simp] theorem readSlot_writeEntry (k : Nat) (v : Byte) (j : Nat) : readSlot (writeEntry k v s) j = readSlot s j := rfl
@[simp] theorem closed_writeEntry (k : Nat) (v : Byte) (j : Nat) : closed (writeEntry k v s) j = closed s j := rfl
@[simp] theorem readEntry_writeSlot (i : Nat) (v : Half) (j : Nat) : readEntry (writeSlot i v s) j = readEntry s j := rfl
@[simp] theorem closed_writeSlot (i : Nat) (v : Half) (j : Nat) : closed (writeSlot i v s) j = closed s j := rfl
@[simp] theorem readEntry_setCounter (v : Byte) (j : Nat) : readEntry (setCounter v s) j = readEntry s j := rfl
@[simp] theorem readSlot_setCounter (v : Byte) (j : Nat) : readSlot (setCounter v s) j = readSlot s j := rfl
@[simp] theorem closed_setCounter (v : Byte) (j : Nat) : closed (setCounter v s) j = closed s j := rfl
@[simp] theorem readEntry_setUsed (v : Half) (j : Nat) : readEntry (setUsed v s) j = readEntry s j := rfl
@[simp] theorem readSlot_setUsed (v : Half) (j : Nat) : readSlot (setUsed v s) j = readSlot s j := rfl
@[simp] theorem closed_setUsed (v : Half) (j : Nat) : closed (setUsed v s) j = closed s j := rfl
@[simp] theorem readEntry_respond (r : RespCode) (d : Half) (b : Bool) (j : Nat) : readEntry (respond r d b s) j = readEntry s j := rfl
@[simp] theorem readSlot_respond (r : RespCode) (d : Half) (b : Bool) (j : Nat) : readSlot (respond r d b s) j = readSlot s j := rfl
@[simp] theorem closed_respond (r : RespCode) (d : Half) (b : Bool) (j : Nat) : closed (respond r d b s) j = closed s j := rfl
@[simp] theorem readEntry_countDraw (j : Nat) : readEntry (countDraw s) j = readEntry s j := rfl
@[simp] theorem readSlot_countDraw (j : Nat) : readSlot (countDraw s) j = readSlot s j := rfl
@[simp] theorem closed_countDraw (j : Nat) : closed (countDraw s) j = closed s j := rfl
@[simp] theorem closed_resetBlock (j : Nat) : closed (resetBlock s) j = closed s j := rfl
@[simp] theorem readEntry_resetBlock (j : Nat) : readEntry (resetBlock s) j = 0 := rfl
@[simp] theorem readSlot_resetBlock (j : Nat) : readSlot (resetBlock s) j = none := rfl
@[simp] theorem raiseError_eq (r : RespCode) : raiseError r s = respond r 0 false s := rfl

end Sys2Proof.Machine
end

