-- ==== Sys2Proof/Laws/Cells.lean ====
section
/-! SUPPORT. The laws of the sparse storage: a read after a write, other indices untouched, and the canonical form. -/

namespace Sys2Proof.Machine

variable {α : Type}

@[simp] theorem cellLookup_nil (k : Nat) : cellLookup ([] : List (Nat × α)) k = none := rfl

theorem cellLookup_insert (m : List (Nat × α)) (k j : Nat) (v : α) :
    cellLookup (cellInsert k v m) j = if j = k then some v else cellLookup m j := by
  induction m with
  | nil => simp [cellInsert, cellLookup]
  | cons e m ih =>
    obtain ⟨i, w⟩ := e
    simp only [cellInsert]
    split_ifs <;> simp_all [cellLookup]

theorem cellLookup_erase (m : List (Nat × α)) (k j : Nat) :
    cellLookup (cellErase k m) j = if j = k then none else cellLookup m j := by
  induction m with
  | nil => simp [cellErase]
  | cons e m ih =>
    obtain ⟨i, w⟩ := e
    simp only [cellErase]
    split_ifs <;> simp_all [cellLookup]

theorem mem_cellInsert {m : List (Nat × α)} {k : Nat} {v : α} {e : Nat × α} (h : e ∈ cellInsert k v m) :
    e = (k, v) ∨ e ∈ m := by
  induction m with
  | nil => simpa [cellInsert] using h
  | cons f m ih =>
    obtain ⟨i, w⟩ := f
    simp only [cellInsert] at h
    split_ifs at h <;> simp_all <;> tauto

theorem mem_cellErase {m : List (Nat × α)} {k : Nat} {e : Nat × α} (h : e ∈ cellErase k m) : e ∈ m ∧ e.1 ≠ k := by
  induction m with
  | nil => simp [cellErase] at h
  | cons f m ih =>
    obtain ⟨i, w⟩ := f
    simp only [cellErase] at h
    split_ifs at h with hk
    · exact ⟨List.mem_cons_of_mem _ (ih h).1, (ih h).2⟩
    · rcases List.mem_cons.1 h with rfl | h
      · exact ⟨List.mem_cons_self, fun hc => hk hc.symm⟩
      · exact ⟨List.mem_cons_of_mem _ (ih h).1, (ih h).2⟩

theorem cellsRising_insert {m : List (Nat × α)} (k : Nat) (v : α) (h : cellsRising m) :
    cellsRising (cellInsert k v m) := by
  induction m with
  | nil => simp [cellInsert]
  | cons e m ih =>
    obtain ⟨i, w⟩ := e
    obtain ⟨h1, h2⟩ := List.pairwise_cons.1 h
    simp only [cellInsert]
    split_ifs with hlt heq
    · refine List.pairwise_cons.2 ⟨fun f hf => ?_, h⟩
      rcases List.mem_cons.1 hf with rfl | hf
      · exact hlt
      · exact Nat.lt_trans hlt (h1 f hf)
    · exact List.pairwise_cons.2 ⟨fun f hf => by have := h1 f hf; simp at this ⊢; omega, h2⟩
    · refine List.pairwise_cons.2 ⟨fun f hf => ?_, ih h2⟩
      rcases mem_cellInsert hf with rfl | hf
      · simp; omega
      · exact h1 f hf

theorem cellsRising_erase {m : List (Nat × α)} (k : Nat) (h : cellsRising m) : cellsRising (cellErase k m) := by
  induction m with
  | nil => simp [cellErase]
  | cons e m ih =>
    obtain ⟨i, w⟩ := e
    obtain ⟨h1, h2⟩ := List.pairwise_cons.1 h
    simp only [cellErase]
    split_ifs
    · exact ih h2
    · exact List.pairwise_cons.2 ⟨fun f hf => h1 f (mem_cellErase hf).1, ih h2⟩

theorem mem_of_cellLookup {m : List (Nat × α)} {k : Nat} {v : α} (h : cellLookup m k = some v) : (k, v) ∈ m := by
  induction m with
  | nil => simp at h
  | cons e m ih =>
    obtain ⟨i, w⟩ := e
    simp only [cellLookup] at h
    split_ifs at h with hk
    · simp_all
    · exact List.mem_cons_of_mem _ (ih h)

/-- A read of the table after a write (R13). -/
theorem readEntry_writeEntry (s : State) (k j : Nat) (v : Byte) :
    readEntry (writeEntry k v s) j = if j = k then v else readEntry s j := by
  unfold readEntry
  rw [writeEntry_table]
  split_ifs with h0 hj <;> simp_all [cellLookup_erase, cellLookup_insert]

/-- A read of the buffer after a write (R13). -/
theorem readSlot_writeSlot (s : State) (i j : Nat) (v : Half) :
    readSlot (writeSlot i v s) j = if j = i then some v else readSlot s j := by
  simp [readSlot, cellLookup_insert]

/-- A table write keeps the canonical form. -/
theorem Memory.wf_writeEntry {s : State} (k : Nat) (v : Byte) (h : Memory.wf s.table s.buf) :
    Memory.wf (writeEntry k v s).table (writeEntry k v s).buf := by
  obtain ⟨h1, h2, h3⟩ := h
  rw [writeEntry_table, writeEntry_buf]
  split_ifs with hv
  · exact ⟨cellsRising_erase k h1, fun e he => h2 e (mem_cellErase he).1, h3⟩
  · refine ⟨cellsRising_insert k v h1, fun e he => ?_, h3⟩
    rcases mem_cellInsert he with rfl | he
    exacts [hv, h2 e he]

/-- A buffer write keeps the canonical form. -/
theorem Memory.wf_writeSlot {s : State} (i : Nat) (v : Half) (h : Memory.wf s.table s.buf) :
    Memory.wf (writeSlot i v s).table (writeSlot i v s).buf :=
  ⟨h.1, h.2.1, cellsRising_insert i v h.2.2⟩

/-- Asserting reset leaves the canonical form (R220). -/
theorem Memory.wf_resetBlock (s : State) : Memory.wf (resetBlock s).table (resetBlock s).buf :=
  ⟨List.Pairwise.nil, by simp, List.Pairwise.nil⟩

/-- Reset leaves the canonical form (R33). -/
theorem Memory.wf_resetWith (p : Params) : Memory.wf (State.resetWith p).table (State.resetWith p).buf :=
  ⟨List.Pairwise.nil, by simp [State.resetWith], List.Pairwise.nil⟩

end Sys2Proof.Machine
end

