-- ==== Sys2Proof/Laws/Fields.lean ====
section
/-! SUPPORT. The fields of a table entry in numbers: CNT is the entry modulo 128 and LATCH is bit 7 (10_state.md R21). -/

namespace Sys2Proof.Machine

theorem cntOf_eq_mod (e : Byte) : cntOf e = e.toNat % 128 := by
  simp [cntOf, BitVec.toNat_and, Nat.and_two_pow_sub_one_eq_mod e.toNat 7]

theorem cntOf_lt (e : Byte) : cntOf e < 128 := by rw [cntOf_eq_mod]; omega

/-- The count step adds one below the limit (R101). -/
theorem cntOf_bumpEntry (e : Byte) (h : cntOf e ≠ 127) : cntOf (bumpEntry e) = cntOf e + 1 := by
  revert e; decide

/-- The count step keeps LATCH (R101). -/
theorem latchOf_bumpEntry (e : Byte) (h : cntOf e ≠ 127) : latchOf (bumpEntry e) = latchOf e := by
  revert e; decide

/-- Below the limit the count step is plain addition of one to the entry. -/
theorem bumpEntry_eq_add_one (e : Byte) (h : cntOf e ≠ 127) : bumpEntry e = e + 1 := by
  revert e; decide

@[simp] theorem cntOf_zero : cntOf 0 = 0 := by decide
@[simp] theorem cntOf_latchedEntry : cntOf latchedEntry = 0 := by decide
@[simp] theorem cntOf_clearedEntry : cntOf clearedEntry = 0 := by decide
@[simp] theorem latchOf_latchedEntry : latchOf latchedEntry = true := by decide
@[simp] theorem latchOf_clearedEntry : latchOf clearedEntry = false := by decide

theorem mem_keys {n k : Nat} : k ∈ keys n ↔ 1 ≤ k ∧ k ≤ n := by
  simp [keys]; omega

theorem keys_nodup (n : Nat) : (keys n).Nodup := List.nodup_range'

/-- The keys ascend (R126). -/
theorem keys_ascending (n : Nat) : (keys n).Pairwise (· < ·) := List.pairwise_lt_range'

/-- A key's SCAN bit (R74). -/
theorem closed_of_mem {s : State} {k : Nat} (h : k ∈ keys s.cfg.n) : closed s k = s.scan.testBit (k - 1) := by
  obtain ⟨h1, h2⟩ := mem_keys.1 h
  simp [closed, h1, h2]

theorem not_closed_of_not_mem {s : State} {k : Nat} (h : k ∉ keys s.cfg.n) : closed s k = false := by
  have h' : ¬(1 ≤ k ∧ k ≤ s.cfg.n) := fun hc => h (mem_keys.2 hc)
  simp only [closed, Bool.and_eq_false_iff, decide_eq_false_iff_not]
  left; by_cases h1 : 1 ≤ k <;> simp_all

theorem budgetReached_iff (p : Params) (c : Nat) : budgetReached p c = true ↔ p.maxSamples ≤ c := by
  simp [budgetReached]

theorem pressed_iff (p : Params) (e : Byte) : pressed p e = true ↔ p.sampleThreshold < e.toNat % 128 := by
  simp [pressed, cntOf_eq_mod]

theorem inTable_iff (s : State) (k : Nat) : inTable s k = true ↔ k ≤ s.cfg.n := by simp [inTable]

theorem inBuffer_iff (s : State) (i : Nat) : inBuffer s i = true ↔ i < s.cfg.b := by simp [inBuffer]

theorem zext16_toNat (v : Byte) : (zext16 v).toNat = v.toNat := by
  simp [zext16]; omega

end Sys2Proof.Machine
end

