-- ==== Sys2Proof/Laws/Sampler.lean ====
section
/-! SUPPORT. What the raw-count update does (40_sampler.md R101): it changes `table` alone, lane by lane. -/

namespace Sys2Proof.Machine

theorem sampleKey_eq (s : State) (k : Nat) : ∃ m, sampleKey s k = { s with table := m } := by
  unfold sampleKey
  split_ifs
  exacts [⟨_, rfl⟩, ⟨_, rfl⟩]

/-- The update changes the table alone. -/
theorem foldl_sampleKey_eq (ks : List Nat) (s : State) : ∃ m, ks.foldl sampleKey s = { s with table := m } := by
  induction ks generalizing s with
  | nil => exact ⟨_, rfl⟩
  | cons k ks ih =>
    obtain ⟨m, hm⟩ := sampleKey_eq s k
    obtain ⟨m', hm'⟩ := ih { s with table := m }
    exact ⟨m', by simpa [hm] using hm'⟩

theorem sampleKeys_eq (s : State) : ∃ m, sampleKeys s = { s with table := m } := foldl_sampleKey_eq _ s

@[simp] theorem sampleKeys_cfg (s : State) : (sampleKeys s).cfg = s.cfg := by obtain ⟨m, h⟩ := sampleKeys_eq s; rw [h]
@[simp] theorem sampleKeys_c (s : State) : (sampleKeys s).c = s.c := by obtain ⟨m, h⟩ := sampleKeys_eq s; rw [h]
@[simp] theorem sampleKeys_u (s : State) : (sampleKeys s).u = s.u := by obtain ⟨m, h⟩ := sampleKeys_eq s; rw [h]
@[simp] theorem sampleKeys_buf (s : State) : (sampleKeys s).buf = s.buf := by obtain ⟨m, h⟩ := sampleKeys_eq s; rw [h]
@[simp] theorem sampleKeys_scan (s : State) : (sampleKeys s).scan = s.scan := by obtain ⟨m, h⟩ := sampleKeys_eq s; rw [h]
@[simp] theorem sampleKeys_rst (s : State) : (sampleKeys s).rst = s.rst := by obtain ⟨m, h⟩ := sampleKeys_eq s; rw [h]
@[simp] theorem sampleKeys_pending (s : State) : (sampleKeys s).pending = s.pending := by
  obtain ⟨m, h⟩ := sampleKeys_eq s; rw [h]
@[simp] theorem sampleKeys_responses (s : State) : (sampleKeys s).responses = s.responses := by
  obtain ⟨m, h⟩ := sampleKeys_eq s; rw [h]
@[simp] theorem sampleKeys_draws (s : State) : (sampleKeys s).draws = s.draws := by
  obtain ⟨m, h⟩ := sampleKeys_eq s; rw [h]

theorem closed_sampleKey (s : State) (k j : Nat) : closed (sampleKey s k) j = closed s j := by
  obtain ⟨m, h⟩ := sampleKey_eq s k
  rw [h]; rfl

/-- One lane (R101). -/
theorem readEntry_sampleKey (s : State) (k j : Nat) :
    readEntry (sampleKey s k) j = if j = k ∧ closed s k = true then bumpEntry (readEntry s k) else readEntry s j := by
  unfold sampleKey
  split_ifs with hc h h <;> simp_all [readEntry_writeEntry]

/-- The lanes are independent: each listed closed key is counted once (R101). -/
theorem readEntry_foldl_sampleKey {ks : List Nat} (hn : ks.Nodup) (s : State) (j : Nat) :
    readEntry (ks.foldl sampleKey s) j =
      if j ∈ ks ∧ closed s j = true then bumpEntry (readEntry s j) else readEntry s j := by
  induction ks generalizing s with
  | nil => simp
  | cons k ks ih =>
    obtain ⟨hk, hn⟩ := List.nodup_cons.1 hn
    rw [List.foldl_cons, ih hn, closed_sampleKey, readEntry_sampleKey]
    by_cases hj : j = k
    · subst hj; simp [hk]
    · simp [hj]

/-- The raw-count update (R101): a closed key is counted, every other entry is as before. -/
theorem readEntry_sampleKeys (s : State) (j : Nat) :
    readEntry (sampleKeys s) j = if closed s j = true then bumpEntry (readEntry s j) else readEntry s j := by
  rw [sampleKeys, readEntry_foldl_sampleKey (keys_nodup _)]
  by_cases hj : j ∈ keys s.cfg.n
  · simp [hj]
  · simp [hj, not_closed_of_not_mem hj]

theorem Memory.wf_foldl_sampleKey {ks : List Nat} {s : State} (h : Memory.wf s.table s.buf) :
    Memory.wf (ks.foldl sampleKey s).table (ks.foldl sampleKey s).buf := by
  induction ks generalizing s with
  | nil => exact h
  | cons k ks ih =>
    refine ih ?_
    unfold sampleKey
    split_ifs
    exacts [Memory.wf_writeEntry _ _ h, h]

/-- The raw-count update keeps the canonical form. -/
theorem Memory.wf_sampleKeys {s : State} (h : Memory.wf s.table s.buf) :
    Memory.wf (sampleKeys s).table (sampleKeys s).buf := Memory.wf_foldl_sampleKey h

/-- A listed index after a table write was listed before, or is the one written. -/
theorem mem_writeEntry_table {s : State} {k : Nat} {v : Byte} {e : Host.Cell} (h : e ∈ (writeEntry k v s).table) :
    e.1 = k ∨ e ∈ s.table := by
  rw [writeEntry_table] at h
  split_ifs at h
  · exact .inr (mem_cellErase h).1
  · rcases mem_cellInsert h with rfl | h
    exacts [.inl rfl, .inr h]

theorem mem_foldl_sampleKey_table {ks : List Nat} {s : State} {e : Host.Cell} (h : e ∈ (ks.foldl sampleKey s).table) :
    e.1 ∈ ks ∨ e ∈ s.table := by
  induction ks generalizing s with
  | nil => exact .inr h
  | cons k ks ih =>
    rcases ih h with h | h
    · exact .inl (List.mem_cons_of_mem _ h)
    · unfold sampleKey at h
      split_ifs at h
      · rcases mem_writeEntry_table h with rfl | h
        exacts [.inl List.mem_cons_self, .inr h]
      · exact .inr h

/-- The raw-count update lists entries of keys 1..N only, beside those listed before. -/
theorem mem_sampleKeys_table {s : State} {e : Host.Cell} (h : e ∈ (sampleKeys s).table) :
    e.1 ∈ keys s.cfg.n ∨ e ∈ s.table := mem_foldl_sampleKey_table h

/-- CYCLE has a result exactly when no closed key stands at the limit (R101, R105, R210). -/
theorem execCycle_eq (s : State) :
    execCycle s = if (∃ k ∈ keys s.cfg.n, closed s k = true ∧ cntOf (readEntry s k) = 127) then .fault .cntOverflow
      else .next (finishCycle (sampleKeys s)) := by
  simp [execCycle, cntOverflows]

end Sys2Proof.Machine
end

