-- ==== Sys2Proof/Laws/Assessor.lean ====
section
/-! SUPPORT. What an assessment does (41_assessor.md R120 to R126): the table entry by entry, the buffer slot by slot. -/

namespace Sys2Proof.Machine

/-- Everything an append can do (R125): store at `BUF[U]` and raise `U`, or nothing. -/
theorem appendKey_cases (k : Nat) (s : State) :
    (s.u.toNat < s.cfg.b ∧ appendKey k s = setUsed (s.u + 1) (writeSlot s.u.toNat (BitVec.ofNat 16 k) s)) ∨
      (s.cfg.b ≤ s.u.toNat ∧ appendKey k s = s) := by
  unfold appendKey
  split_ifs with h
  exacts [.inl ⟨h, rfl⟩, .inr ⟨Nat.le_of_not_lt h, rfl⟩]

theorem appendKey_eq (k : Nat) (s : State) : ∃ v m, appendKey k s = { s with u := v, buf := m } := by
  rcases appendKey_cases k s with ⟨-, h⟩ | ⟨-, h⟩
  exacts [⟨_, _, h⟩, ⟨_, _, h⟩]

theorem assessKey_eq (s : State) (k : Nat) : ∃ t v m, assessKey s k = { s with table := t, u := v, buf := m } := by
  unfold assessKey
  obtain ⟨v, m, h⟩ := appendKey_eq k s
  split_ifs
  · rw [h]; exact ⟨_, _, _, rfl⟩
  · exact ⟨_, _, _, rfl⟩

theorem foldl_assessKey_eq (ks : List Nat) (s : State) :
    ∃ t v m, ks.foldl assessKey s = { s with table := t, u := v, buf := m } := by
  induction ks generalizing s with
  | nil => exact ⟨_, _, _, rfl⟩
  | cons k ks ih =>
    obtain ⟨t, v, m, h⟩ := assessKey_eq s k
    obtain ⟨t', v', m', h'⟩ := ih { s with table := t, u := v, buf := m }
    exact ⟨t', v', m', by simpa [h] using h'⟩

/-- An assessment changes the table, the buffer, `U` and `C` alone, and leaves `C = 0` (R120, R121). -/
theorem assess_eq (s : State) : ∃ t v m, assess s = { s with table := t, c := 0, u := v, buf := m } :=
  foldl_assessKey_eq _ _

@[simp] theorem assess_cfg (s : State) : (assess s).cfg = s.cfg := by obtain ⟨_, _, _, h⟩ := assess_eq s; rw [h]
@[simp] theorem assess_c (s : State) : (assess s).c = 0 := by obtain ⟨_, _, _, h⟩ := assess_eq s; rw [h]
@[simp] theorem assess_scan (s : State) : (assess s).scan = s.scan := by obtain ⟨_, _, _, h⟩ := assess_eq s; rw [h]
@[simp] theorem assess_rst (s : State) : (assess s).rst = s.rst := by obtain ⟨_, _, _, h⟩ := assess_eq s; rw [h]
@[simp] theorem assess_pending (s : State) : (assess s).pending = s.pending := by
  obtain ⟨_, _, _, h⟩ := assess_eq s; rw [h]
@[simp] theorem assess_responses (s : State) : (assess s).responses = s.responses := by
  obtain ⟨_, _, _, h⟩ := assess_eq s; rw [h]
@[simp] theorem assess_draws (s : State) : (assess s).draws = s.draws := by obtain ⟨_, _, _, h⟩ := assess_eq s; rw [h]

@[simp] theorem readEntry_appendKey (k : Nat) (s : State) (j : Nat) : readEntry (appendKey k s) j = readEntry s j := by
  obtain ⟨v, m, h⟩ := appendKey_eq k s
  rw [h]; rfl

theorem assessKey_cfg (s : State) (k : Nat) : (assessKey s k).cfg = s.cfg := by
  obtain ⟨_, _, _, h⟩ := assessKey_eq s k; rw [h]

/-- The entry a judged key gets (R123, R124). -/
def judgedEntry (p : Params) (e : Byte) : Byte := if pressed p e = true then latchedEntry else clearedEntry

theorem readEntry_assessKey (s : State) (k j : Nat) :
    readEntry (assessKey s k) j = if j = k then judgedEntry s.cfg (readEntry s k) else readEntry s j := by
  unfold assessKey judgedEntry
  split_ifs <;> simp_all [readEntry_writeEntry]

theorem readEntry_foldl_assessKey {ks : List Nat} (hn : ks.Nodup) (s : State) (j : Nat) :
    readEntry (ks.foldl assessKey s) j = if j ∈ ks then judgedEntry s.cfg (readEntry s j) else readEntry s j := by
  induction ks generalizing s with
  | nil => simp
  | cons k ks ih =>
    obtain ⟨hk, hn⟩ := List.nodup_cons.1 hn
    rw [List.foldl_cons, ih hn, assessKey_cfg, readEntry_assessKey]
    by_cases hj : j = k
    · subst hj; simp [hk]
    · simp [hj]

/-- The table rewrite (R123, R124): entries 1..N by their judgement, every other entry as before. -/
theorem readEntry_assess (s : State) (j : Nat) :
    readEntry (assess s) j = if j ∈ keys s.cfg.n then judgedEntry s.cfg (readEntry s j) else readEntry s j := by
  rw [assess, readEntry_foldl_assessKey (keys_nodup _)]; rfl

/-- The keys among `ks` that the comparator judges pressed. -/
def judgedKeys (s : State) (ks : List Nat) : List Nat := ks.filter fun k => pressed s.cfg (readEntry s k)

/-- The buffer after the turns of `ks`: the pressed keys, in their order, as far as there is room (R125, R126). -/
structure Appended (s t : State) (js : List Nat) : Prop where
  used : t.u.toNat = s.u.toNat + min js.length (s.cfg.b - s.u.toNat)
  stored : ∀ i < min js.length (s.cfg.b - s.u.toNat), readSlot t (s.u.toNat + i) = js[i]?.map (BitVec.ofNat 16)
  kept : ∀ i, (i < s.u.toNat ∨ s.u.toNat + min js.length (s.cfg.b - s.u.toNat) ≤ i) → readSlot t i = readSlot s i

theorem appended_foldl {ks : List Nat} (hn : ks.Nodup) (s : State) (hb : s.cfg.b ≤ 65535) :
    Appended s (ks.foldl assessKey s) (judgedKeys s ks) := by
  induction ks generalizing s with
  | nil => exact ⟨by simp [judgedKeys], by simp [judgedKeys], by simp⟩
  | cons k ks ih =>
    obtain ⟨hk, hn⟩ := List.nodup_cons.1 hn
    have hjs : judgedKeys (assessKey s k) ks = judgedKeys s ks := by
      refine List.filter_congr fun j hj => ?_
      rw [assessKey_cfg, readEntry_assessKey, if_neg (fun h : j = k => hk (h ▸ hj))]
    have hcfg : (assessKey s k).cfg = s.cfg := assessKey_cfg s k
    obtain ⟨hu, hs, hkeep⟩ := ih hn (assessKey s k) (hcfg ▸ hb)
    simp only [hjs, hcfg] at hu hs hkeep
    rw [List.foldl_cons]
    by_cases hp : pressed s.cfg (readEntry s k) = true
    · have hak : assessKey s k = writeEntry k latchedEntry (appendKey k s) := by simp [assessKey, hp]
      have hj : judgedKeys s (k :: ks) = k :: judgedKeys s ks := by simp [judgedKeys, hp]
      rcases appendKey_cases k s with ⟨hlt, ha⟩ | ⟨hge, ha⟩
      · have hu1 : (assessKey s k).u.toNat = s.u.toNat + 1 := by
          rw [hak, ha]; simp [BitVec.toNat_add]; omega
        have hslot : ∀ i, readSlot (assessKey s k) i = if i = s.u.toNat then some (BitVec.ofNat 16 k) else readSlot s i := by
          intro i; rw [hak, ha]; simp [readSlot_writeSlot]
        have hm : min (k :: judgedKeys s ks).length (s.cfg.b - s.u.toNat)
            = 1 + min (judgedKeys s ks).length (s.cfg.b - (s.u.toNat + 1)) := by
          simp only [List.length_cons]; omega
        rw [hu1] at hu hs hkeep
        rw [hj]
        refine ⟨by rw [hm, hu]; omega, fun i hi => ?_, fun i hi => ?_⟩
        · cases i with
          | zero =>
            rw [hkeep _ (.inl (by omega)), hslot]; simp
          | succ i =>
            have := hs i (by rw [hm] at hi; omega)
            rw [show s.u.toNat + (i + 1) = s.u.toNat + 1 + i by omega, this]; simp
        · rw [hm] at hi
          rw [hkeep i (by omega), hslot, if_neg (by omega)]
      · have hu1 : (assessKey s k).u = s.u := by rw [hak, ha]; rfl
        have hslot : ∀ i, readSlot (assessKey s k) i = readSlot s i := by intro i; rw [hak, ha]; rfl
        have h0 : s.cfg.b - s.u.toNat = 0 := by omega
        rw [hu1, h0] at hu hs hkeep
        exact ⟨by rw [h0]; simpa using hu, fun i hi => absurd hi (by rw [h0]; simp),
          fun i hi => by rw [hkeep i (by rw [h0] at hi; simpa using hi), hslot]⟩
    · have hak : assessKey s k = writeEntry k clearedEntry s := by simp [assessKey, hp]
      have hj : judgedKeys s (k :: ks) = judgedKeys s ks := by simp [judgedKeys, hp]
      have hu1 : (assessKey s k).u = s.u := by rw [hak]; rfl
      have hslot : ∀ i, readSlot (assessKey s k) i = readSlot s i := by intro i; rw [hak]; rfl
      rw [hu1] at hu hs hkeep
      rw [hj]
      exact ⟨hu, hs, fun i hi => by rw [hkeep i hi, hslot]⟩

/-- The appends of one assessment (R125, R126): the pressed keys of 1..N, ascending, from `BUF[U]` on, as far as there is
room; no other slot changes. -/
theorem assess_appended (s : State) (hb : s.cfg.b ≤ 65535) : Appended s (assess s) (judgedKeys s (keys s.cfg.n)) := by
  obtain ⟨hu, hs, hk⟩ := appended_foldl (keys_nodup s.cfg.n) (setCounter 0 s) hb
  exact ⟨hu, hs, hk⟩

theorem Memory.wf_appendKey {s : State} (k : Nat) (h : Memory.wf s.table s.buf) :
    Memory.wf (appendKey k s).table (appendKey k s).buf := by
  rcases appendKey_cases k s with ⟨-, ha⟩ | ⟨-, ha⟩ <;> rw [ha]
  exacts [Memory.wf_writeSlot _ _ h, h]

theorem Memory.wf_foldl_assessKey {ks : List Nat} {s : State} (h : Memory.wf s.table s.buf) :
    Memory.wf (ks.foldl assessKey s).table (ks.foldl assessKey s).buf := by
  induction ks generalizing s with
  | nil => exact h
  | cons k ks ih =>
    refine ih ?_
    unfold assessKey
    split_ifs
    exacts [Memory.wf_writeEntry _ _ (Memory.wf_appendKey k h), Memory.wf_writeEntry _ _ h]

/-- An assessment keeps the canonical form. -/
theorem Memory.wf_assess {s : State} (h : Memory.wf s.table s.buf) : Memory.wf (assess s).table (assess s).buf :=
  Memory.wf_foldl_assessKey h

theorem mem_appendKey_buf {k : Nat} {s : State} {e : Nat × Half} (h : e ∈ (appendKey k s).buf) :
    e ∈ s.buf ∨ (e = (s.u.toNat, BitVec.ofNat 16 k) ∧ s.u.toNat < s.cfg.b) := by
  rcases appendKey_cases k s with ⟨hlt, ha⟩ | ⟨-, ha⟩ <;> rw [ha] at h
  · rcases mem_cellInsert h with rfl | h
    exacts [.inr ⟨rfl, hlt⟩, .inl h]
  · exact .inl h

theorem mem_foldl_assessKey {ks : List Nat} {s : State} :
    (∀ e ∈ (ks.foldl assessKey s).table, e.1 ∈ ks ∨ e ∈ s.table) ∧
      ∀ e ∈ (ks.foldl assessKey s).buf, e ∈ s.buf ∨ (e.1 < s.cfg.b ∧ ∃ k ∈ ks, e.2 = BitVec.ofNat 16 k) := by
  induction ks generalizing s with
  | nil => exact ⟨fun e h => .inr h, fun e h => .inl h⟩
  | cons k ks ih =>
    obtain ⟨ht, hb⟩ := ih (s := assessKey s k)
    rw [assessKey_cfg] at hb
    have htk : ∀ e ∈ (assessKey s k).table, e.1 = k ∨ e ∈ s.table := by
      intro e he
      unfold assessKey at he
      split_ifs at he
      · rcases mem_writeEntry_table he with h | h
        · exact .inl h
        · obtain ⟨v, m, ha⟩ := appendKey_eq k s
          rw [ha] at h; exact .inr h
      · exact mem_writeEntry_table he
    have hbk : ∀ e ∈ (assessKey s k).buf, e ∈ s.buf ∨ (e.1 < s.cfg.b ∧ e.2 = BitVec.ofNat 16 k) := by
      intro e he
      unfold assessKey at he
      split_ifs at he
      · rcases mem_appendKey_buf he with h | ⟨rfl, h⟩
        exacts [.inl h, .inr ⟨h, rfl⟩]
      · exact .inl he
    refine ⟨fun e he => ?_, fun e he => ?_⟩
    · rcases ht e he with h | h
      · exact .inl (List.mem_cons_of_mem _ h)
      · rcases htk e h with rfl | h
        exacts [.inl List.mem_cons_self, .inr h]
    · rcases hb e he with h | ⟨h, k', hk', hv⟩
      · rcases hbk e h with h | ⟨h, hv⟩
        exacts [.inl h, .inr ⟨h, k, List.mem_cons_self, hv⟩]
      · exact .inr ⟨h, k', List.mem_cons_of_mem _ hk', hv⟩

/-- An assessment lists entries of keys 1..N only, beside those listed before. -/
theorem mem_assess_table {s : State} {e : Host.Cell} (h : e ∈ (assess s).table) : e.1 ∈ keys s.cfg.n ∨ e ∈ s.table :=
  (mem_foldl_assessKey (s := setCounter 0 s)).1 e h

/-- An assessment writes slots below B only, and key indices of 1..N only (R29, R125). -/
theorem mem_assess_buf {s : State} {e : Nat × Half} (h : e ∈ (assess s).buf) :
    e ∈ s.buf ∨ (e.1 < s.cfg.b ∧ ∃ k ∈ keys s.cfg.n, e.2 = BitVec.ofNat 16 k) :=
  (mem_foldl_assessKey (s := setCounter 0 s)).2 e h

end Sys2Proof.Machine
end

