-- ==== Sys2Proof/Laws/Decode.lean ====
section
/-! SUPPORT. The fields of a command word in numbers (00_scope.md R11, 30_encoding.md R71). -/

namespace Sys2Proof

theorem opField_toNat (w : CmdWord) : (opField w).toNat = w.toNat / 2 ^ 28 := by
  have := w.isLt
  simp only [opField, BitVec.extractLsb'_toNat, Nat.shiftRight_eq_div_pow]
  omega

theorem rsvField_toNat (w : CmdWord) : (rsvField w).toNat = w.toNat / 2 ^ 16 % 2 ^ 12 := by
  simp only [rsvField, BitVec.extractLsb'_toNat, Nat.shiftRight_eq_div_pow]

theorem argField_toNat (w : CmdWord) : (argField w).toNat = w.toNat % 2 ^ 16 := by
  simp only [argField, BitVec.extractLsb'_toNat, Nat.shiftRight_eq_div_pow]
  omega

theorem rsvField_eq_zero (w : CmdWord) : rsvField w = 0 ↔ w.toNat / 2 ^ 16 % 2 ^ 12 = 0 := by
  rw [← rsvField_toNat, ← BitVec.toNat_inj]
  rfl

theorem argField_eq_zero (w : CmdWord) : argField w = 0 ↔ w.toNat % 2 ^ 16 = 0 := by
  rw [← argField_toNat, ← BitVec.toNat_inj]
  rfl

theorem argField_eq_ofNat (w : CmdWord) : argField w = BitVec.ofNat 16 w.toNat := by
  apply BitVec.eq_of_toNat_eq
  rw [argField_toNat, BitVec.toNat_ofNat]

/-- A command without operand decodes exactly when its `ARG` is 0 (R73). -/
theorem noOperand_cases (arg : Half) (i : Instr) :
    (arg = 0 ∧ noOperand arg i = .ok i) ∨ (arg ≠ 0 ∧ noOperand arg i = .error .argNotZero) := by
  by_cases h : arg = 0
  · exact .inl ⟨h, if_pos h⟩
  · exact .inr ⟨h, if_neg h⟩

end Sys2Proof
end

