-- ==== Sys2Proof/Laws/Exec.lean ====
section
/-! SUPPORT. What a command can answer, once for CYCLE and once for all the others, and the counts a CYCLE judges in the
numbers of Safety.lean. -/

namespace Sys2Proof.Machine

/-- A command other than CYCLE always answers, changes neither table, counter nor buffer, and adds one response whose READY
is 0; only CLRUSED changes `U` (R26 to R29, R75). -/
theorem exec_of_ne_cycle {i : Instr} (h : i ≠ .cycle) (s : State) :
    ∃ r u' d, r.ready = false ∧ (i ≠ .clrused → u' = s.u) ∧
      exec i s = .next { s with u := u', draws := d, responses := r :: s.responses } := by
  cases i with
  | cycle => exact absurd rfl h
  | nop => exact ⟨_, _, _, rfl, fun _ => rfl, rfl⟩
  | rdused => exact ⟨_, _, _, rfl, fun _ => rfl, rfl⟩
  | rdcyc => exact ⟨_, _, _, rfl, fun _ => rfl, rfl⟩
  | clrused => exact ⟨_, _, _, rfl, fun hc => absurd rfl hc, rfl⟩
  | rdtbl k =>
    simp only [exec, execRdtbl]
    split_ifs
    exacts [⟨_, _, _, rfl, fun _ => rfl, rfl⟩, ⟨_, _, _, rfl, fun _ => rfl, rfl⟩]
  | rdbuf j =>
    simp only [exec, execRdbuf, answerSlot]
    split_ifs
    · split
      exacts [⟨_, _, _, rfl, fun _ => rfl, rfl⟩, ⟨_, _, _, rfl, fun _ => rfl, rfl⟩]
    · exact ⟨_, _, _, rfl, fun _ => rfl, rfl⟩

/-- The overflow test of CYCLE in the numbers of Safety.lean. -/
theorem noCountAtLimit_iff (s : State) :
    NoCountAtLimit s ↔ ¬∃ k ∈ keys s.cfg.n, closed s k = true ∧ cntOf (readEntry s k) = 127 := by
  constructor
  · rintro h ⟨k, hk, hc, he⟩
    exact h k hk (closed_of_mem hk ▸ hc) (cntOf_eq_mod _ ▸ he)
  · intro h k hk hc he
    exact h ⟨k, hk, closed_of_mem hk ▸ hc, (cntOf_eq_mod _).trans he⟩

/-- CYCLE where it has a result (R105). -/
theorem exec_cycle_of_noCountAtLimit {s : State} (h : NoCountAtLimit s) :
    exec .cycle s = .next (finishCycle (sampleKeys s)) := by
  rw [exec, execCycle_eq, if_neg ((noCountAtLimit_iff s).1 h)]

/-- CYCLE stops where a closed key stands at the limit (R101). -/
theorem exec_cycle_of_countAtLimit {s : State} (h : ¬NoCountAtLimit s) : exec .cycle s = .fault .cntOverflow := by
  rw [exec, execCycle_eq, if_pos]
  by_contra hc
  exact h ((noCountAtLimit_iff s).2 hc)

/-- A CYCLE that answers had a result. -/
theorem noCountAtLimit_of_exec {s t : State} (h : exec .cycle s = .next t) :
    NoCountAtLimit s ∧ t = finishCycle (sampleKeys s) := by
  by_cases hn : NoCountAtLimit s
  · rw [exec_cycle_of_noCountAtLimit hn] at h
    exact ⟨hn, (Host.Outcome.next.inj h).symm⟩
  · rw [exec_cycle_of_countAtLimit hn] at h
    cases h

theorem finishCycle_of_due {s : State} (h : BudgetDue s) :
    finishCycle (sampleKeys s) = respond .ok 0 true (assess (sampleKeys s)) := by
  rw [finishCycle, if_pos]
  exact (budgetReached_iff _ _).2 (by simpa [steppedCounter] using h)

theorem finishCycle_of_not_due {s : State} (h : ¬BudgetDue s) :
    finishCycle (sampleKeys s) =
      respond .ok 0 false (setCounter (BitVec.ofNat 8 (s.c.toNat + s.cfg.step)) (sampleKeys s)) := by
  rw [finishCycle, if_neg]
  · simp [steppedCounter]
  · exact fun hc => h (by simpa [steppedCounter] using (budgetReached_iff _ _).1 hc)

/-- The count the comparator sees (R122): the window's, this CYCLE's sample included (R103). -/
theorem count_sampleKeys {s : State} (h : NoCountAtLimit s) {k : Nat} (hk : k ∈ keys s.cfg.n) :
    (readEntry (sampleKeys s) k).toNat % 128 = countWithThis s k := by
  rw [readEntry_sampleKeys, closed_of_mem hk, countWithThis]
  split_ifs with hc
  · have hne : cntOf (readEntry s k) ≠ 127 := by rw [cntOf_eq_mod]; exact h k hk hc
    rw [← cntOf_eq_mod, cntOf_bumpEntry _ hne, cntOf_eq_mod]
  · rfl

/-- The raw-count update keeps LATCH (R101). -/
theorem latch_sampleKeys {s : State} (h : NoCountAtLimit s) (k : Nat) :
    (readEntry (sampleKeys s) k).toNat / 128 = (readEntry s k).toNat / 128 := by
  rw [readEntry_sampleKeys]
  split_ifs with hc
  · have hk : k ∈ keys s.cfg.n := by
      by_contra hk
      rw [not_closed_of_not_mem hk] at hc
      cases hc
    have hne : cntOf (readEntry s k) ≠ 127 := by
      rw [cntOf_eq_mod]; exact h k hk (closed_of_mem hk ▸ hc)
    rw [bumpEntry_eq_add_one _ hne, BitVec.toNat_add]
    rw [cntOf_eq_mod] at hne
    have := (readEntry s k).isLt
    simp
    omega
  · rfl

/-- The keys an assessment judges pressed, in the numbers of Safety.lean. -/
theorem judgedKeys_sampleKeys {s : State} (h : NoCountAtLimit s) :
    judgedKeys (sampleKeys s) (keys (sampleKeys s).cfg.n) = pressedKeys s := by
  rw [sampleKeys_cfg]
  refine List.filter_congr fun k hk => ?_
  rw [Bool.eq_iff_iff, pressed_iff, count_sampleKeys h hk]
  simp

end Sys2Proof.Machine
end

