-- ==== Sys2Proof/Laws/Step.lean ====
section
/-! SUPPORT. Everything a step can do (20_memory.md R58, 70_reset_and_hazards.md R220). -/

namespace Sys2Proof.Machine

theorem step_of_idle {s : State} (h : s.pending = []) : step s = .next s := by
  simp [step, fetch, h]

theorem step_of_rst {s : State} {level : Bool} {rest : List HostAction} (h : s.pending = .rst level :: rest) :
    step s = .next (driveRst level { s with pending := rest }) := by
  simp [step, fetch, h]

theorem step_of_held {s : State} {w : CmdWord} {v : Nat} {rest : List HostAction} (hr : s.rst = true)
    (h : s.pending = .command w v :: rest) : step s = .next { s with pending := rest } := by
  simp [step, fetch, h, hr]

theorem step_of_accepted {s : State} {w : CmdWord} {v : Nat} {rest : List HostAction} (hr : s.rst = false)
    (h : s.pending = .command w v :: rest) :
    step s = match decode w with
      | .ok i => exec i { s with pending := rest, scan := v }
      | .error _ => .next (raiseError .illegal { s with pending := rest, scan := v }) := by
  have hf : fetch s = .accepted w { s with pending := rest, scan := v } := by
    unfold fetch
    rw [h]
    exact if_neg (by rw [hr]; exact Bool.false_ne_true)
  rw [step, hf] <;> rfl

/-- Everything a step that answers a next state can have done. -/
theorem step_cases {s t : State} (h : step s = .next t) :
    (s.pending = [] ∧ t = s) ∨
      (∃ level rest, s.pending = .rst level :: rest ∧ t = driveRst level { s with pending := rest }) ∨
      (s.rst = true ∧ ∃ w v rest, s.pending = .command w v :: rest ∧ t = { s with pending := rest }) ∨
      (s.rst = false ∧ ∃ w v rest, s.pending = .command w v :: rest ∧
        ((∃ e, decode w = .error e ∧ t = raiseError .illegal { s with pending := rest, scan := v }) ∨
          ∃ i, decode w = .ok i ∧ exec i { s with pending := rest, scan := v } = .next t)) := by
  cases hp : s.pending with
  | nil =>
    rw [step_of_idle hp] at h
    exact .inl ⟨rfl, (Host.Outcome.next.inj h).symm⟩
  | cons a rest =>
    cases a with
    | rst level =>
      rw [step_of_rst hp] at h
      exact .inr (.inl ⟨level, rest, rfl, (Host.Outcome.next.inj h).symm⟩)
    | command w v =>
      rcases Bool.eq_false_or_eq_true s.rst with hr | hr
      · rw [step_of_held hr hp] at h
        exact .inr (.inr (.inl ⟨hr, w, v, rest, rfl, (Host.Outcome.next.inj h).symm⟩))
      · rw [step_of_accepted hr hp] at h
        refine .inr (.inr (.inr ⟨hr, w, v, rest, rfl, ?_⟩))
        cases hd : decode w with
        | error e =>
          rw [hd] at h
          exact .inl ⟨e, rfl, (Host.Outcome.next.inj h).symm⟩
        | ok i =>
          rw [hd] at h
          exact .inr ⟨i, rfl, h⟩

@[simp] theorem driveRst_cfg (level : Bool) (s : State) : (driveRst level s).cfg = s.cfg := by
  cases level <;> rfl

/-- A placed command is the host's next action, and the block accepts it. -/
theorem fetch_placeCommand (w : CmdWord) (s : State) :
    fetch (placeCommand w s) = .accepted w { s with rst := false } := rfl

end Sys2Proof.Machine
end

