-- ==== Sys2Proof/Laws/Invariant.lean ====
section
/-! SUPPORT. What the invariant of Safety.lean gives, and what no command changes. -/

namespace Sys2Proof.Machine

/-- Under the invariant no count stands at the limit (10_state.md R34 item 2). -/
theorem noCountAtLimit_of_inv {s : State} (h : StateInv s) : NoCountAtLimit s := by
  intro k hk _ he
  have hc := h.counts k hk
  have hb := h.counter.2
  have hl := h.legal
  rw [he] at hc
  rcases hl.2.2.1 with hs | hs <;> rw [hs] at hc <;> omega

/-- `T[0] = 0x00` under the invariant (R25). -/
theorem readEntry_zero_of_inv {s : State} (h : StateInv s) : readEntry s 0 = 0 := by
  unfold readEntry
  cases hl : cellLookup s.table 0 with
  | none => rfl
  | some v =>
    have := h.tableKeys _ (mem_of_cellLookup hl)
    simp at this

/-- A count is below W exactly when that many steps stay below the budget (R10, R107). -/
theorem lt_window_iff {s : State} (h : StateInv s) (j : Nat) :
    j < s.cfg.window ↔ j * s.cfg.step < s.cfg.maxSamples := by
  have hl := h.legal
  unfold Params.window
  rcases hl.2.2.1 with hs | hs <;> rw [hs] <;> omega

/-- A CYCLE that answers keeps the parameters, the host's actions and `rst` (R105). -/
theorem exec_cycle_keeps_ports {s t : State} (h : exec .cycle s = .next t) :
    t.cfg = s.cfg ∧ t.pending = s.pending ∧ t.rst = s.rst ∧ t.scan = s.scan ∧ t.draws = s.draws := by
  obtain ⟨-, rfl⟩ := noCountAtLimit_of_exec h
  by_cases hb : BudgetDue s
  · rw [finishCycle_of_due hb]; simp
  · rw [finishCycle_of_not_due hb]; simp

/-- No command changes the parameters, the host's actions, `rst` or the SCAN vector. -/
theorem exec_keeps_ports {i : Instr} {s t : State} (h : exec i s = .next t) :
    t.cfg = s.cfg ∧ t.pending = s.pending ∧ t.rst = s.rst ∧ t.scan = s.scan := by
  by_cases hi : i = .cycle
  · subst hi
    obtain ⟨h1, h2, h3, h4, -⟩ := exec_cycle_keeps_ports h
    exact ⟨h1, h2, h3, h4⟩
  · obtain ⟨r, u', d, -, -, h3⟩ := exec_of_ne_cycle hi s
    rw [h3] at h
    cases h
    exact ⟨rfl, rfl, rfl, rfl⟩

/-- Cycles run one after the other: a sequence may be cut anywhere. -/
theorem runCycles_append {xs : List Nat} (ys : List Nat) {s t : State} (h : runCycles xs s = .next t) :
    runCycles (xs ++ ys) s = runCycles ys t := by
  induction xs generalizing s with
  | nil => cases h; rfl
  | cons v vs ih =>
    simp only [runCycles, List.cons_append] at h ⊢
    cases he : exec .cycle { s with scan := v } with
    | next a => rw [he] at h; exact ih h
    | fault r => rw [he] at h; cases h
    | refused r => rw [he] at h; cases h

end Sys2Proof.Machine
end

