-- ==== Sys2Proof/Laws/PerInstr.lean ====
section
/-! SUPPORT. One statement per command about its encoding (30_encoding.md R71 to R73): the three fields of its word. -/

namespace Sys2Proof.Laws.EncodingFields

/-- The word of a command holds its `OP` in bits [31:28], 0 in `RSV` and its index, or 0, in `ARG` (R71, R76). -/
def Statement (i : Instr) : Prop :=
  opField (encode i) = opcode i ∧ rsvField (encode i) = 0 ∧ argField (encode i) = operand i

/-- The fields of `{op, rsv, arg}` (R11, R71). -/
theorem fields_of_append (op : BitVec 4) (rsv : BitVec 12) (arg : Half) :
    opField (op ++ rsv ++ arg) = op ∧ rsvField (op ++ rsv ++ arg) = rsv ∧ argField (op ++ rsv ++ arg) = arg := by
  have h : (op ++ rsv ++ arg).toNat = op.toNat * 2 ^ 28 + rsv.toNat * 2 ^ 16 + arg.toNat := by
    rw [BitVec.toNat_append, BitVec.toNat_append, ← Nat.shiftLeft_add_eq_or_of_lt arg.isLt,
      ← Nat.shiftLeft_add_eq_or_of_lt rsv.isLt, Nat.shiftLeft_eq, Nat.shiftLeft_eq]
    omega
  have ha := arg.isLt
  have hr := rsv.isLt
  have ho := op.isLt
  refine ⟨?_, ?_, ?_⟩ <;> apply BitVec.eq_of_toNat_eq <;>
    simp only [opField, rsvField, argField, BitVec.extractLsb'_toNat, h, Nat.shiftRight_eq_div_pow] <;> omega

theorem nop : Statement .nop := fields_of_append _ _ _
theorem cycle : Statement .cycle := fields_of_append _ _ _
theorem rdtbl (k : Half) : Statement (.rdtbl k) := fields_of_append _ _ _
theorem rdbuf (i : Half) : Statement (.rdbuf i) := fields_of_append _ _ _
theorem rdused : Statement .rdused := fields_of_append _ _ _
theorem rdcyc : Statement .rdcyc := fields_of_append _ _ _
theorem clrused : Statement .clrused := fields_of_append _ _ _

end Sys2Proof.Laws.EncodingFields
end

