-- ==== Sys2Proof/Tests/Slice0.lean ====
section
/-! SUPPORT. Tests: expected results from the vectors of 95_test_vectors.md and the examples of the rules; the checks of
WellFormed.lean; and for each statement with hypotheses a witness that meets them. -/

namespace Sys2Proof.Tests

open Sys2Proof Sys2Proof.Machine

/-- A small state: the reset state of an instance with these contents. -/
def mk (p : Params) (c : Byte) (table : List Host.Cell) (scan : Nat) (u : Half) (buf : List (Nat × Half)) : State :=
  { State.resetWith p with c := c, table := table, scan := scan, u := u, buf := buf }

/-- An instance with this hardware's constants. -/
def hw (n b step : Nat) : Params := { n := n, b := b, step := step, sampleThreshold := 110, maxSamples := 127 }

/-- The next state, if there is one. -/
def nextOf (o : Host.Outcome State Fault Refusal) : Option State :=
  match o with
  | .next t => some t
  | .fault _ => none
  | .refused _ => none

/-- The block's state (R20) and the newest response. -/
structure View where
  c : Byte
  table : List Host.Cell
  u : Half
  buf : List (Nat × Half)
  newest : Option Response
deriving DecidableEq, Repr

/-- What an answer leaves. -/
def after (o : Host.Outcome State Fault Refusal) : Option View :=
  (nextOf o).map fun t => { c := t.c, table := t.table, u := t.u, buf := t.buf, newest := t.responses.head? }

/-- The newest response. -/
def answer (o : Host.Outcome State Fault Refusal) : Option Response := (nextOf o).bind fun t => t.responses.head?

/-! WellFormed: each check refuses an ill-formed term (R7, R52), and takes one at its boundary. -/

theorem test_legal_hardware : (hw 65535 65535 2).Legal ∧ (hw 1 0 1).Legal := by decide
theorem test_illegal_no_keys : ¬(hw 0 1 1).Legal := by decide
theorem test_illegal_too_many_keys : ¬(hw 65536 1 1).Legal := by decide
theorem test_illegal_capacity : ¬(hw 1 65536 1).Legal := by decide
theorem test_illegal_step : ¬(hw 1 1 3).Legal := by decide
theorem test_illegal_threshold : ¬({ hw 1 1 1 with sampleThreshold := 128 } : Params).Legal := by decide
theorem test_illegal_budget_zero : ¬({ hw 1 1 1 with maxSamples := 0 } : Params).Legal := by decide
theorem test_illegal_budget : ¬({ hw 1 1 1 with maxSamples := 128 } : Params).Legal := by decide
theorem test_ill_formed_table_index :
    (Instr.rdtbl 4).WellFormed (hw 4 2 1) = true ∧ (Instr.rdtbl 5).WellFormed (hw 4 2 1) = false := by decide
theorem test_ill_formed_buffer_index :
    (Instr.rdbuf 1).WellFormed (hw 4 2 1) = true ∧ (Instr.rdbuf 2).WellFormed (hw 4 2 1) = false := by decide

/-! Decode: the patterns of R76 written out bit by bit, and the words of L2-A. -/

theorem test_decode_nop : decode 0b00000000000000000000000000000000 = .ok .nop := by decide
theorem test_decode_cycle : decode 0b00010000000000000000000000000000 = .ok .cycle := by decide
theorem test_decode_rdtbl : decode 0b00100000000000001000000000000100 = .ok (.rdtbl 0x8004) := by decide
theorem test_decode_rdbuf : decode 0b00110000000000000000000000000001 = .ok (.rdbuf 1) := by decide
theorem test_decode_rdused : decode 0b01000000000000000000000000000000 = .ok .rdused := by decide
theorem test_decode_rdcyc : decode 0b01010000000000000000000000000000 = .ok .rdcyc := by decide
theorem test_decode_clrused : decode 0b01100000000000000000000000000000 = .ok .clrused := by decide
/-- A3, A12, A15. -/
theorem test_decode_arg_not_zero : decode 0x10000001 = .error .argNotZero ∧ decode 0x40000001 = .error .argNotZero ∧
    decode 0x60008000 = .error .argNotZero := by decide
/-- A4, A18, A19. -/
theorem test_decode_rsv_not_zero : decode 0x10010000 = .error .rsvNotZero ∧ decode 0xFFFFFFFF = .error .rsvNotZero ∧
    decode 0x20010100 = .error .rsvNotZero := by decide
/-- A16, A17. -/
theorem test_decode_reserved_op : decode 0x70000000 = .error .reservedOp ∧ decode 0xF0000000 = .error .reservedOp := by decide
/-- R80: RDTBL k is 0x20000000 + k, RDBUF i is 0x30000000 + i. -/
theorem test_encode_index : encode (.rdtbl 0xFFFF) = 0x2000FFFF ∧ encode (.rdbuf 1) = 0x30000001 := by decide
theorem test_decodeTableWord : decodeTableWord 32 0x30000002 = some (.rdbuf 2) ∧ decodeTableWord 32 0x70000000 = none := by
  decide

/-! CYCLE: L2-B. -/

theorem test_cycle_B1 : after (exec .cycle (mk (hw 2 2 1) 0 [] 0b01 0 [])) =
    some ⟨1, [(1, 0x01)], 0, [], some ⟨.ok, 0, false⟩⟩ := by decide
theorem test_cycle_B2 : after (exec .cycle (mk (hw 2 2 1) 5 [(1, 0x05)] 0b00 0 [])) =
    some ⟨6, [(1, 0x05)], 0, [], some ⟨.ok, 0, false⟩⟩ := by decide
theorem test_cycle_B3 : after (exec .cycle (mk (hw 2 2 1) 0 [(1, 0x80)] 0b11 0 [])) =
    some ⟨1, [(1, 0x81), (2, 0x01)], 0, [], some ⟨.ok, 0, false⟩⟩ := by decide
theorem test_cycle_B4 : after (exec .cycle (mk (hw 2 2 1) 126 [(1, 0x6E)] 0b01 0 [])) =
    some ⟨0, [(1, 0x80)], 1, [(0, 1)], some ⟨.ok, 0, true⟩⟩ := by decide
theorem test_cycle_B5 : after (exec .cycle (mk (hw 2 2 1) 126 [(1, 0x6E)] 0b00 0 [])) =
    some ⟨0, [], 0, [], some ⟨.ok, 0, true⟩⟩ := by decide
theorem test_cycle_B6 : after (exec .cycle (mk (hw 2 2 1) 126 [(1, 0xFE), (2, 0x7E)] 0b11 0 [])) =
    some ⟨0, [(1, 0x80), (2, 0x80)], 2, [(0, 1), (1, 2)], some ⟨.ok, 0, true⟩⟩ := by decide
theorem test_cycle_B7 : after (exec .cycle (mk (hw 2 2 2) 124 [(1, 0x3E)] 0b01 0 [])) =
    some ⟨126, [(1, 0x3F)], 0, [], some ⟨.ok, 0, false⟩⟩ := by decide
theorem test_cycle_B8 : after (exec .cycle (mk (hw 2 2 2) 126 [(1, 0x3F)] 0b01 0 [])) =
    some ⟨0, [], 0, [], some ⟨.ok, 0, true⟩⟩ := by decide
theorem test_cycle_B9 : exec .cycle (mk (hw 2 2 1) 126 [(1, 0x7F)] 0b01 0 []) = .fault .cntOverflow := by rfl
theorem test_cycle_B10 :
    after (exec .cycle (mk { n := 2, b := 2, step := 1, sampleThreshold := 0, maxSamples := 1 } 0 [] 0b10 0 [])) =
      some ⟨0, [(2, 0x80)], 1, [(0, 2)], some ⟨.ok, 0, true⟩⟩ := by decide
/-- R109. -/
theorem test_cycle_R109 : after (exec .cycle (mk (hw 4 2 1) 5 [(1, 0x80), (2, 0x03), (4, 0x05)] 0b0011 0 [])) =
    some ⟨6, [(1, 0x81), (2, 0x04), (4, 0x05)], 0, [], some ⟨.ok, 0, false⟩⟩ := by decide
/-- R130 and L1-1, the counts already there. -/
theorem test_assess_R130 :
    after (exec .cycle (mk (hw 4 2 1) 126 [(1, 0x78), (2, 0x32), (3, 0x6F)] 0b0000 0 [])) =
      some ⟨0, [(1, 0x80), (3, 0x80)], 2, [(0, 1), (1, 3)], some ⟨.ok, 0, true⟩⟩ := by decide
/-- L2-D4: one slot, three pressed keys. -/
theorem test_append_D4 :
    after (exec .cycle (mk (hw 3 1 1) 126 [(1, 0x70), (2, 0x70), (3, 0x70)] 0 0 [])) =
      some ⟨0, [(1, 0x80), (2, 0x80), (3, 0x80)], 1, [(0, 1)], some ⟨.ok, 0, true⟩⟩ := by decide
/-- L2-D5: no slot. -/
theorem test_append_D5 : after (exec .cycle (mk (hw 1 0 1) 126 [(1, 0x70)] 0 0 [])) =
    some ⟨0, [(1, 0x80)], 0, [], some ⟨.ok, 0, true⟩⟩ := by decide
/-- P2's assessment: the new key goes after the undrained ones, the last is dropped. -/
theorem test_append_P2 :
    after (exec .cycle (mk (hw 4 3 1) 126 [(1, 0x80), (2, 0x6F), (3, 0xFE)] 0b0100 2 [(0, 1), (1, 3)])) =
      some ⟨0, [(2, 0x80), (3, 0x80)], 3, [(0, 1), (1, 3), (2, 2)], some ⟨.ok, 0, true⟩⟩ := by decide

/-! The other commands: L2-A, L2-E and L2-F. -/

theorem test_nop : after (exec .nop (mk (hw 2 2 1) 5 [(1, 0x05)] 0b11 0 [])) =
    some ⟨5, [(1, 0x05)], 0, [], some ⟨.ok, 0, false⟩⟩ := by decide
theorem test_rdtbl_F6 : answer (exec (.rdtbl 3) (mk (hw 4 2 1) 5 [(3, 0x85)] 0 0 [])) = some ⟨.ok, 0x0085, false⟩ := by
  decide
theorem test_rdtbl_range_A7 : answer (exec (.rdtbl 5) (mk (hw 4 2 1) 5 [(3, 0x85)] 0 0 [])) = some ⟨.range, 0, false⟩ := by
  decide
theorem test_rdbuf_E3 : answer (exec (.rdbuf 1) (mk (hw 4 3 1) 0 [] 0 2 [(0, 1), (1, 3)])) = some ⟨.ok, 3, false⟩ := by
  decide
theorem test_rdbuf_stale_E7 : answer (exec (.rdbuf 0) (mk (hw 4 3 1) 0 [] 0 0 [(0, 1), (1, 3)])) = some ⟨.ok, 1, false⟩ := by
  decide
/-- E4: whatever value is drawn, the response is OK and the block's state stays. -/
theorem test_rdbuf_no_value_E4 :
    (nextOf (exec (.rdbuf 2) (mk (hw 4 3 1) 0 [] 0 2 [(0, 1), (1, 3)]))).map
      (fun t => t.u = 2 ∧ t.buf = [(0, 1), (1, 3)] ∧ t.draws = 1 ∧ t.responses.map (fun r => r.resp) = [.ok]) =
        some True := by
  simp [nextOf, exec, execRdbuf, inBuffer, indexOf, mk, hw, State.resetWith, answerSlot, readSlot, cellLookup, respond,
    countDraw]
theorem test_rdbuf_range_E5 : answer (exec (.rdbuf 3) (mk (hw 4 3 1) 0 [] 0 2 [(0, 1), (1, 3)])) =
    some ⟨.range, 0, false⟩ := by decide
theorem test_rdused_E1 : answer (exec .rdused (mk (hw 4 3 1) 0 [] 0 2 [(0, 1), (1, 3)])) = some ⟨.ok, 2, false⟩ := by decide
theorem test_rdcyc_F7 : answer (exec .rdcyc (mk (hw 4 3 2) 126 [] 0 0 [])) = some ⟨.ok, 0x007E, false⟩ := by decide
theorem test_clrused_E6 : after (exec .clrused (mk (hw 4 3 1) 0 [] 0 2 [(0, 1), (1, 3)])) =
    some ⟨0, [], 0, [(0, 1), (1, 3)], some ⟨.ok, 0, false⟩⟩ := by decide

/-! Steps. -/

/-- P4 line 11: a CYCLE with ARG not 0, every key closed. -/
theorem test_step_illegal_cycle :
    after (step { mk (hw 3 1 1) 0 [] 0 0 [] with pending := [.command 0x10000001 0b111] }) =
      some ⟨0, [], 0, [], some ⟨.illegal, 0, false⟩⟩ := by decide
/-- The scan vector of the command is the one CYCLE samples. -/
theorem test_step_cycle_samples :
    after (step { mk (hw 2 2 1) 0 [] 0b11 0 [] with pending := [.command 0x10000000 0b01] }) =
      some ⟨1, [(1, 0x01)], 0, [], some ⟨.ok, 0, false⟩⟩ := by decide
/-- A placed command is the first that runs after reset. -/
theorem test_step_first_after_reset :
    (nextOf (step (State.reset.withFetchWord 32 0x10000000))).map (fun t => t.c) = some 1 ∧
      (nextOf (step (State.reset.withFetchWord 32 0x10000000))).map (fun t => t.pending) = some [] := by decide
/-- R220. -/
theorem test_step_reset :
    after (step { mk (hw 3 1 1) 7 [(1, 0x83)] 0 1 [(0, 2)] with pending := [.rst true] }) = some ⟨0, [], 0, [], none⟩ := by
  decide

/-! Witnesses. -/

/-- R109's state: in a window. -/
def below : State := mk (hw 4 2 1) 5 [(1, 0x80), (2, 0x03), (4, 0x05)] 0b0011 0 []
/-- B4's state with an entry of the last window in the buffer: the next CYCLE assesses, key 1 is pressed, key 2 is not. -/
def due : State := mk (hw 2 2 1) 126 [(1, 0x6E), (2, 0x80)] 0b01 1 [(0, 2)]
/-- The buffer is full. -/
def full : State := mk (hw 2 1 1) 126 [(1, 0x6E)] 0b01 1 [(0, 2)]
/-- Counts at the threshold. -/
def quiet : State := mk (hw 2 2 1) 126 [(1, 0x6E), (2, 0xED)] 0b10 0 []
/-- Dual-pass mode at its last CYCLE of a window. -/
def dual : State := mk (hw 2 2 2) 126 [(1, 0x3F)] 0b01 0 []
/-- P4's instance at a window start, with a latched key. -/
def start : State := mk { n := 3, b := 1, step := 1, sampleThreshold := 2, maxSamples := 4 } 0 [(2, 0x80)] 0 0 []

theorem below_inv : StateInv below :=
  ⟨by decide, by decide, by decide, by decide, by decide, by decide, by decide, by decide, by decide⟩
theorem due_inv : StateInv due :=
  ⟨by decide, by decide, by decide, by decide, by decide, by decide, by decide, by decide, by decide⟩
theorem dual_inv : StateInv dual :=
  ⟨by decide, by decide, by decide, by decide, by decide, by decide, by decide, by decide, by decide⟩
theorem start_inv : StateInv start :=
  ⟨by decide, by decide, by decide, by decide, by decide, by decide, by decide, by decide, by decide⟩
/-- While `rst` is asserted the invariant asks for the reset state. -/
theorem held_inv : StateInv { State.resetWith (hw 2 2 1) with rst := true } :=
  ⟨by decide, by decide, by decide, by decide, by decide, by decide, by decide, by decide, by decide⟩

theorem witness_EveryDecodedWordIsItsEncoding : decode 0x2000FFFF = .ok (.rdtbl 0xFFFF) := by decide
theorem witness_ExactlyTheIllegalWordsAreRejected :
    IllegalWord 0x70000000 ∧ IllegalWord 0x00010000 ∧ IllegalWord 0x08000000 ∧ IllegalWord 0x60000001 ∧
      ¬IllegalWord 0x60000000 ∧ ¬IllegalWord 0x3000FFFF := by decide
theorem witness_StepRunsTheDecodedCommand :
    ({ below with pending := [.command 0x50000000 0] } : State).rst = false ∧ decode 0x50000000 = .ok .rdcyc := by decide
theorem witness_ErrorResponsesChangeNothing :
    decode 0x10000001 = .error .argNotZero ∧ below.rst = false ∧ below.cfg.n < (5 : Half).toNat ∧
      below.cfg.b ≤ (2 : Half).toNat := by decide
theorem witness_IdleStepChangesNothing : below.pending = [] := by decide
theorem witness_ResetPulseLeavesResetState :
    ({ due with pending := [.rst true, .rst false, .command 0 0] } : State).pending =
      .rst true :: .rst false :: [.command 0 0] := by decide
theorem witness_AssertedResetAcceptsNoCommand :
    let s : State := { below with rst := true, pending := [.command 0x10000000 1] }
    s.rst = true ∧ s.pending = .command 0x10000000 1 :: [] := by decide
theorem witness_RdtblAnswersTheEntry :
    StateInv below ∧ (4 : Half).toNat ≤ below.cfg.n ∧ below.cfg.n < (5 : Half).toNat := ⟨below_inv, by decide, by decide⟩
theorem witness_NoOperandEncoding :
    (0x60000000 : CmdWord).toNat / 2 ^ 28 = 6 ∧ (0x60000000 : CmdWord).toNat % 2 ^ 28 = 0 ∧
      (0x60000001 : CmdWord).toNat / 2 ^ 28 = 6 ∧ (0x60000001 : CmdWord).toNat % 2 ^ 28 ≠ 0 := by decide
theorem witness_IndexEncoding :
    (0x3000FFFF : CmdWord).toNat / 2 ^ 28 = 3 ∧ (0x3000FFFF : CmdWord).toNat / 2 ^ 16 % 2 ^ 12 = 0 ∧
      (0x30010000 : CmdWord).toNat / 2 ^ 28 = 3 ∧ (0x30010000 : CmdWord).toNat / 2 ^ 16 % 2 ^ 12 ≠ 0 := by decide
theorem witness_RdusedAnswersTheUsedLength :
    ({ due with pending := [.rst true, .rst false] } : State).pending = .rst true :: .rst false :: [] ∧ due.u ≠ 0 ∧
      (nextOf (exec .clrused due)).isSome = true ∧
      full.u.toNat = full.cfg.b ∧ (nextOf (exec .cycle full)).isSome = true := by decide
theorem witness_RdbufAnswersTheSlot :
    (0 : Half).toNat < due.cfg.b ∧ readSlot due 0 = some 2 ∧ (1 : Half).toNat < due.cfg.b ∧ readSlot due 1 = none ∧
      due.cfg.b ≤ (2 : Half).toNat := by decide
theorem witness_ValidSlotsAnswerKeyIndices : StateInv due ∧ (0 : Half).toNat < due.u.toNat := ⟨due_inv, by decide⟩
theorem witness_CycleBelowBudgetCountsSamples :
    below.cfg.Legal ∧ NoCountAtLimit below ∧ ¬BudgetDue below ∧ below.scan.testBit (2 - 1) = true ∧
      below.scan.testBit (4 - 1) = false ∧ (quiet.scan.testBit (2 - 1) = true ∧ NoCountAtLimit quiet) := by decide
theorem witness_AssessingCycleRewritesTheTable :
    NoCountAtLimit due ∧ BudgetDue due ∧ due.cfg.sampleThreshold < countWithThis due 1 ∧
      ¬due.cfg.sampleThreshold < countWithThis due 2 := by decide
theorem witness_AssessingCycleAppendsPressedKeys :
    due.cfg.Legal ∧ NoCountAtLimit due ∧ BudgetDue due ∧ pressedKeys due = [1] ∧ storedCount due = 1 := by decide
theorem witness_FullBufferDropsSilently :
    NoCountAtLimit full ∧ BudgetDue full ∧ full.cfg.b ≤ full.u.toNat ∧ full.cfg.sampleThreshold < countWithThis full 1 := by
  decide
theorem witness_AssessmentWithoutPressAppendsNothing :
    NoCountAtLimit quiet ∧ BudgetDue quiet ∧ countWithThis quiet 1 = 110 ∧ countWithThis quiet 2 = 110 ∧
      ∀ k ∈ keys quiet.cfg.n, countWithThis quiet k ≤ quiet.cfg.sampleThreshold := by decide
theorem witness_CycleFaultsExactlyOnCountOverflow :
    let s := mk (hw 2 2 1) 126 [(2, 0xFF)] 0b10 0 []
    2 ≤ s.cfg.n ∧ s.scan.testBit (2 - 1) = true ∧ (readEntry s 2).toNat % 128 = 127 := by decide
theorem witness_LatchDoesNotFeedBack :
    let s' : State := { due with table := [(1, 0xEE)] }
    BudgetDue due ∧ (nextOf (exec .cycle due)).isSome = true ∧ readEntry s' 1 ≠ readEntry due 1 ∧
      readEntry s' 2 ≠ readEntry due 2 ∧
      ∀ k ∈ keys 2, (readEntry s' k).toNat % 128 = (readEntry due k).toNat % 128 := by decide
theorem witness_WindowTooShortReportsNoPress :
    StateInv dual ∧ dual.cfg.window ≤ dual.cfg.sampleThreshold ∧ BudgetDue dual := ⟨dual_inv, by decide, by decide⟩
theorem witness_ScanMattersToCycleAtKeysOnly :
    (nextOf (exec .rdused due)).isSome = true ∧ (nextOf (exec .cycle due)).isSome = true ∧
      ∀ k ∈ keys due.cfg.n, (0b1101 : Nat).testBit (k - 1) = due.scan.testBit (k - 1) := by decide
theorem witness_WindowHasExactlyWCycles :
    StateInv start ∧ start.rst = false ∧ start.c = 0 ∧ [0b011, 0b111, 0b101].length < start.cfg.window ∧
      [0b011, 0b111, 0b101, 0b011].length = start.cfg.window := ⟨start_inv, by decide⟩
theorem witness_CountIsClosedSamplesOfTheWindow :
    StateInv start ∧ start.rst = false ∧ start.c = 0 ∧ [0b011, 0b111, 0b101].length < start.cfg.window :=
  ⟨start_inv, by decide⟩
/-- Key 1 is closed in 4 of P4's window, key 3 in exactly the threshold. -/
theorem witness_WindowJudgesByItsClosedSamples :
    StateInv start ∧ start.rst = false ∧ start.c = 0 ∧ [0b011, 0b111, 0b101, 0b011].length = start.cfg.window ∧
      closedSamples [0b011, 0b111, 0b101, 0b011] 1 = 4 ∧ closedSamples [0b011, 0b111, 0b101, 0b011] 3 = 2 :=
  ⟨start_inv, by decide⟩
theorem witness_ResponsesFollowTheirFormat :
    (nextOf (exec .cycle due)).isSome = true ∧ (nextOf (exec .cycle below)).isSome = true ∧
      (nextOf (exec (.rdtbl 5) below)).isSome = true := by decide
theorem witness_OnlyOutOfRangeIndexesErr :
    (nextOf (exec (.rdbuf 2) due)).isSome = true ∧ (Instr.rdbuf 2).WellFormed due.cfg = false ∧
      (nextOf (exec (.rdbuf 1) due)).isSome = true ∧ (Instr.rdbuf 1).WellFormed due.cfg = true := by decide
theorem witness_EachAcceptedWordYieldsOneResponse :
    let s : State := { below with pending := [.command 0xFFFFFFFF 0] }
    s.rst = false ∧ s.pending = .command 0xFFFFFFFF 0 :: [] ∧ (nextOf (step s)).isSome = true := by decide
theorem witness_OnlyCycleWritesTableAndCounter :
    (nextOf (exec .clrused due)).isSome = true ∧ (nextOf (exec .cycle due)).isSome = true := by decide
/-- For OnlyAssessmentsWriteTheBuffer and LatchIsWrittenByAssessmentsOnly. -/
theorem witness_answer_without_ready :
    ∃ t r, exec .cycle below = .next t ∧ answered below t r ∧ r.ready = false := ⟨_, _, rfl, rfl, rfl⟩
theorem witness_OnlyClrusedLowersTheUsedLength :
    due.cfg.Legal ∧ (nextOf (exec .cycle due)).isSome = true ∧ (readSlot due 0).isSome = true := by decide
theorem witness_NoStepChangesTheParameters : (nextOf (step { due with pending := [.rst true] })).isSome = true := by decide
theorem witness_StepKeepsCanonicalStorage :
    Memory.wf due.table due.buf ∧ (nextOf (step { due with pending := [.command 0x10000000 1] })).isSome = true := by decide
theorem witness_ResetMeetsTheInvariant : (hw 4 4 1).Legal ∧ Config.params.Legal := by decide
theorem witness_StepKeepsTheInvariant : StateInv below ∧ step below = .next below := ⟨below_inv, rfl⟩
theorem witness_NoStepStopsUnderTheInvariant : StateInv due := due_inv
theorem witness_RunAnswersEveryCommand :
    let s : State := { start with pending := [.command 0x10000000 0b011, .command 0xFFFFFFFF 0] }
    StateInv s ∧ s.rst = false ∧ ∀ a ∈ s.pending, ∃ w v, a = .command w v :=
  ⟨⟨by decide, by decide, by decide, by decide, by decide, by decide, by decide, by decide, by decide⟩, rfl, by simp⟩

end Sys2Proof.Tests
end

section
namespace Sys2Proof.Machine

/-- Settles O37, along everything a step can do: a level of `rst` resets the block alone (R220), a dropped or illegal word
changes the ports alone (R202), and no command changes the parameters (R8, R222). -/
theorem noStepChangesTheParameters : Obligations.NoStepChangesTheParameters := by
  intro s t h
  obtain ⟨-, rfl⟩ | ⟨level, rest, -, rfl⟩ | ⟨-, w, v, rest, -, rfl⟩ |
    ⟨-, w, v, rest, -, ⟨e, -, rfl⟩ | ⟨i, -, hexec⟩⟩ := step_cases h
  · rfl
  · exact driveRst_cfg level _
  · rfl
  · exact respond_cfg _ _ _ _
  · obtain ⟨hcfg, -⟩ := exec_keeps_ports hexec
    exact hcfg

end Sys2Proof.Machine
end

section
/-! Facts the statements about the block's state share: everything a command can do, the entries and slots after a CYCLE, and
the ports the invariant does not look at. -/

namespace Sys2Proof.Machine

/-- Everything a command that answers a next state can have done: a command other than CYCLE leaves table, counter and buffer
alone (R26 to R29, R142), a CYCLE below the budget samples and steps `C` (R101, R102), and one that reaches it samples and
assesses (R104). -/
theorem exec_cases {i : Instr} {s t : State} (h : exec i s = .next t) :
    (i ≠ .cycle ∧ ∃ r u' d, r.ready = false ∧ (u' = s.u ∨ i = .clrused ∧ u' = 0) ∧
        t = { s with u := u', draws := d, responses := r :: s.responses }) ∨
      (i = .cycle ∧ NoCountAtLimit s ∧ ¬BudgetDue s ∧
        t = respond .ok 0 false (setCounter (BitVec.ofNat 8 (s.c.toNat + s.cfg.step)) (sampleKeys s))) ∨
      (i = .cycle ∧ NoCountAtLimit s ∧ BudgetDue s ∧ t = respond .ok 0 true (assess (sampleKeys s))) := by
  by_cases hi : i = .cycle
  · subst hi
    obtain ⟨hn, rfl⟩ := noCountAtLimit_of_exec h
    by_cases hb : BudgetDue s
    · exact .inr (.inr ⟨rfl, hn, hb, finishCycle_of_due hb⟩)
    · exact .inr (.inl ⟨rfl, hn, hb, finishCycle_of_not_due hb⟩)
  · refine .inl ⟨hi, ?_⟩
    by_cases hc : i = .clrused
    · subst hc
      exact ⟨_, 0, s.draws, rfl, .inr ⟨rfl, rfl⟩, (Host.Outcome.next.inj h).symm⟩
    · obtain ⟨r, u', d, hr, hu, he⟩ := exec_of_ne_cycle hi s
      exact ⟨r, u', d, hr, .inl (hu hc), Host.Outcome.next.inj (h.symm.trans he)⟩

/-- The raw-count update leaves the entries outside 1..N (R25, R101). -/
theorem readEntry_sampleKeys_of_not_mem {s : State} {k : Nat} (hk : k ∉ keys s.cfg.n) :
    readEntry (sampleKeys s) k = readEntry s k := by
  rw [readEntry_sampleKeys, not_closed_of_not_mem hk, if_neg Bool.false_ne_true]

/-- An assessing CYCLE leaves the entries outside 1..N (R25, R123, R124). -/
theorem readEntry_assess_sampleKeys_of_not_mem {s : State} {k : Nat} (hk : k ∉ keys s.cfg.n) :
    readEntry (assess (sampleKeys s)) k = readEntry s k := by
  rw [readEntry_assess, sampleKeys_cfg, if_neg hk, readEntry_sampleKeys_of_not_mem hk]

/-- An assessing CYCLE judges a key of 1..N by its count, this CYCLE's sample included (R103, R122 to R124). -/
theorem readEntry_assess_sampleKeys {s : State} (h : NoCountAtLimit s) {k : Nat} (hk : k ∈ keys s.cfg.n) :
    readEntry (assess (sampleKeys s)) k = if s.cfg.sampleThreshold < countWithThis s k then 0x80 else 0x00 := by
  rw [readEntry_assess, sampleKeys_cfg, if_pos hk, judgedEntry]
  simp only [pressed_iff, count_sampleKeys h hk]
  rfl

/-- The raw-count update leaves the buffer (R101). -/
@[simp] theorem readSlot_sampleKeys (s : State) (i : Nat) : readSlot (sampleKeys s) i = readSlot s i := by
  rw [readSlot, readSlot, sampleKeys_buf]

/-- An assessment appends: a slot that held a value holds one, and so does every slot from the old `U` up to the new one (R125,
R144). -/
theorem readSlot_assess_isSome {s : State} (hb : s.cfg.b ≤ 65535) {i : Nat}
    (h : (readSlot s i).isSome = true ∨ s.u.toNat ≤ i ∧ i < (assess s).u.toNat) :
    (readSlot (assess s) i).isSome = true := by
  obtain ⟨hused, hstored, hkept⟩ := assess_appended s hb
  rw [hused] at h
  by_cases hi : s.u.toNat ≤ i ∧ i < s.u.toNat + min (judgedKeys s (keys s.cfg.n)).length (s.cfg.b - s.u.toNat)
  · obtain ⟨j, rfl⟩ := Nat.exists_eq_add_of_le hi.1
    have hj : j < min (judgedKeys s (keys s.cfg.n)).length (s.cfg.b - s.u.toNat) := by omega
    rw [hstored j hj, List.getElem?_eq_getElem (by omega)]
    rfl
  · rw [hkept i (by omega)]
    exact h.resolve_right hi

/-- The invariant speaks of none of the ports but `rst`, and of no field of the model's own (R20). -/
theorem StateInv.with_ports {s : State} (h : StateInv s) (v : Nat) (as : List HostAction) (rs : List Response) (d : Nat) :
    StateInv { s with scan := v, pending := as, responses := rs, draws := d } :=
  ⟨h.legal, h.canonical, h.tableKeys, h.bufKeys, h.used, h.valid, h.counter, h.counts, h.held⟩

/-- RDBUF of a slot that holds a value (R141). -/
theorem exec_rdbuf_of_slot {s : State} {i v : Half} (hi : i.toNat < s.cfg.b) (hv : readSlot s i.toNat = some v) :
    exec (.rdbuf i) s = .next (respond .ok v false s) := by
  have hin : inBuffer s (indexOf i) = true := (inBuffer_iff _ _).2 hi
  have hanswer : answerSlot (indexOf i) s = respond .ok v false s := by
    rw [answerSlot, show readSlot s (indexOf i) = some v from hv]
  rw [exec, execRdbuf, if_pos hin, hanswer]

/-- A run begins with its first step. -/
theorem run_succ_of_step (M : Host.Core) {s t : M.State} (k : Nat) (h : M.step s = .next t) :
    M.run (k + 1) s = M.run k t := by
  simp only [Host.Core.run, h]

end Sys2Proof.Machine
end

section
/-! Reset (R33, R220) and the writers of the block's state (R23, R25 to R29). -/

namespace Sys2Proof.Machine

/-- Settles O8, by the two steps of the pulse: the first resets the block, the second releases `rst`. -/
theorem resetPulseLeavesResetState : Obligations.ResetPulseLeavesResetState := by
  intro s rest h
  have hassert := step_of_rst h
  have hrelease := step_of_rst (s := driveRst true { s with pending := .rst false :: rest }) (rest := rest) rfl
  refine ⟨_, (run_succ_of_step core 1 hassert).trans (run_succ_of_step core 0 hrelease), ?_⟩
  exact ⟨fun _ => rfl, rfl, rfl, fun _ => rfl, rfl⟩

/-- Settles O10: `State.resetWith` lists no entry and no slot. -/
theorem resetHoldsTheStatedValues : Obligations.ResetHoldsTheStatedValues :=
  fun _ => ⟨fun _ => rfl, rfl, rfl, fun _ => rfl, rfl⟩

/-- Settles O33, along everything a command can do: the updates of CYCLE leave the entries outside 1..N. -/
theorem onlyCycleWritesTableAndCounter : Obligations.OnlyCycleWritesTableAndCounter := by
  intro i s t h
  have houtside : ∀ k, (k = 0 ∨ s.cfg.n < k) → k ∉ keys s.cfg.n := fun k hk hm => by
    have := mem_keys.1 hm
    omega
  obtain ⟨-, r, u', d, -, -, rfl⟩ | ⟨rfl, -, -, rfl⟩ | ⟨rfl, -, -, rfl⟩ := exec_cases h
  · exact ⟨fun _ => ⟨rfl, rfl⟩, fun _ _ => rfl⟩
  · exact ⟨fun hi => absurd rfl hi, fun k hk => readEntry_sampleKeys_of_not_mem (houtside k hk)⟩
  · exact ⟨fun hi => absurd rfl hi, fun k hk => readEntry_assess_sampleKeys_of_not_mem (houtside k hk)⟩

/-- A command whose one response has READY 0 did not assess (R30, R75): it changes no slot and no LATCH, and unless it is
CLRUSED it leaves `U`. -/
theorem exec_not_ready {i : Instr} {s t : State} {r : Response} (h : exec i s = .next t) (hr : answered s t r)
    (hready : r.ready = false) :
    t.buf = s.buf ∧ (i ≠ .clrused → t.u = s.u) ∧
      ∀ k, (readEntry t k).toNat / 128 = (readEntry s k).toNat / 128 := by
  obtain ⟨-, _, u', d, -, hu, rfl⟩ | ⟨-, hn, -, rfl⟩ | ⟨-, -, -, rfl⟩ := exec_cases h
  · exact ⟨rfl, fun hi => hu.resolve_right fun hc => hi hc.1, fun _ => rfl⟩
  · exact ⟨by simp, fun _ => by simp, fun k => latch_sampleKeys hn k⟩
  · have hanswer : r = ⟨.ok, 0, true⟩ := by simpa [answered, eq_comm] using hr
    rw [hanswer] at hready
    cases hready

/-- Settles O34: a command with READY 0 did not assess. -/
theorem onlyAssessmentsWriteTheBuffer : Obligations.OnlyAssessmentsWriteTheBuffer := by
  intro i s t r h hr hready
  obtain ⟨hbuf, hused, -⟩ := exec_not_ready h hr hready
  exact ⟨hbuf, hused⟩

/-- Settles O36: a command with READY 0 did not assess, and the raw-count update keeps LATCH. -/
theorem latchIsWrittenByAssessmentsOnly : Obligations.LatchIsWrittenByAssessmentsOnly := by
  intro i s t r h hr hready
  obtain ⟨-, -, hlatch⟩ := exec_not_ready h hr hready
  exact hlatch

/-- Settles O35: only an assessment writes slots, and it appends. -/
theorem onlyClrusedLowersTheUsedLength : Obligations.OnlyClrusedLowersTheUsedLength := by
  intro i s t hlegal h
  obtain ⟨-, hb, -⟩ := hlegal
  obtain ⟨-, _, u', d, -, hu, rfl⟩ | ⟨-, -, -, rfl⟩ | ⟨-, -, -, rfl⟩ := exec_cases h
  · refine ⟨fun _ hj => hj, fun hi => ?_⟩
    rw [hu.resolve_right fun hc => hi hc.1]
  · exact ⟨fun j hj => by simpa using hj, fun _ => by simp⟩
  · have hb' : (sampleKeys s).cfg.b ≤ 65535 := by rwa [sampleKeys_cfg]
    refine ⟨fun j hj => readSlot_assess_isSome hb' (.inl (by rwa [readSlot_sampleKeys])), fun _ => ?_⟩
    have hused := (assess_appended (sampleKeys s) hb').used
    rw [sampleKeys_u] at hused
    rw [respond_u, hused]
    exact Nat.le_add_right _ _

end Sys2Proof.Machine
end

section
/-! The invariant of R34 and the canonical form of the storage. -/

namespace Sys2Proof.Machine

/-- Every command keeps the canonical form of the storage. -/
theorem exec_keeps_canonical {i : Instr} {s t : State} (hwf : Memory.wf s.table s.buf) (h : exec i s = .next t) :
    Memory.wf t.table t.buf := by
  obtain ⟨-, _, _, _, -, -, rfl⟩ | ⟨-, -, -, rfl⟩ | ⟨-, -, -, rfl⟩ := exec_cases h
  · exact hwf
  · exact Memory.wf_sampleKeys hwf
  · exact Memory.wf_assess (Memory.wf_sampleKeys hwf)

/-- Settles O38, along everything a step can do: reset empties the storage, and every command keeps the form. -/
theorem stepKeepsCanonicalStorage : Obligations.StepKeepsCanonicalStorage := by
  intro s t hwf h
  obtain ⟨-, rfl⟩ | ⟨level, rest, -, rfl⟩ | ⟨-, w, v, rest, -, rfl⟩ |
    ⟨-, w, v, rest, -, ⟨e, -, rfl⟩ | ⟨i, -, hexec⟩⟩ := step_cases h
  · exact hwf
  · cases level
    · exact hwf
    · exact Memory.wf_resetBlock s
  · exact hwf
  · exact hwf
  · exact exec_keeps_canonical (s := { s with pending := rest, scan := v }) hwf hexec

/-- A block whose table, counter, used length and buffer are those of R33 meets the invariant, whatever its ports. -/
theorem stateInv_of_reset_values {s : State} (hlegal : s.cfg.Legal) (htable : s.table = []) (hc : s.c = 0) (hu : s.u = 0)
    (hbuf : s.buf = []) : StateInv s where
  legal := hlegal
  canonical := by rw [htable, hbuf]; exact Memory.wf_resetBlock s
  tableKeys := by simp [htable]
  bufKeys := by simp [hbuf]
  used := by simp [hu]
  valid := by simp [hu]
  counter := by
    obtain ⟨-, -, -, -, hmax, -⟩ := hlegal
    rw [hc]
    exact ⟨dvd_zero _, hmax⟩
  counts := by simp [readEntry, htable]
  held := fun _ => ⟨htable, hc, hu, hbuf⟩

/-- Settles O39: the reset state holds the values of R33. -/
theorem resetMeetsTheInvariant : Obligations.ResetMeetsTheInvariant :=
  fun _ hlegal => stateInv_of_reset_values hlegal rfl rfl rfl rfl

/-- The used length may be set to 0 (R142). -/
theorem StateInv.with_used_zero {s : State} (h : StateInv s) : StateInv { s with u := 0 } where
  legal := h.legal
  canonical := h.canonical
  tableKeys := h.tableKeys
  bufKeys := h.bufKeys
  used := Nat.zero_le _
  valid := by simp
  counter := h.counter
  counts := h.counts
  held := fun hr => by
    obtain ⟨htable, hc, -, hbuf⟩ := h.held hr
    exact ⟨htable, hc, rfl, hbuf⟩

/-- The raw-count update lists keys of 1..N only, if the table did (R25). -/
theorem sampleKeys_tableKeys {s : State} (h : ∀ e ∈ s.table, 1 ≤ e.1 ∧ e.1 ≤ s.cfg.n) :
    ∀ e ∈ (sampleKeys s).table, 1 ≤ e.1 ∧ e.1 ≤ s.cfg.n := fun e he =>
  (mem_sampleKeys_table he).elim mem_keys.1 (h e)

/-- Below the budget `C + STEP` fits in the Cycle Counter (R27, R103). -/
theorem counter_toNat_of_not_due {s : State} (hlegal : s.cfg.Legal) (hd : ¬BudgetDue s) :
    (BitVec.ofNat 8 (s.c.toNat + s.cfg.step)).toNat = s.c.toNat + s.cfg.step := by
  obtain ⟨-, -, -, -, -, hmax⟩ := hlegal
  rw [BitVec.toNat_ofNat]
  exact Nat.mod_eq_of_lt (by omega)

/-- A count and its window advance together: one sample more against one STEP more (R34 item 2). -/
theorem countWithThis_mul_step_le {s : State} (h : StateInv s) {k : Nat} (hk : k ∈ keys s.cfg.n) :
    countWithThis s k * s.cfg.step ≤ s.c.toNat + s.cfg.step := by
  rw [countWithThis, Nat.add_mul]
  refine Nat.add_le_add (h.counts k hk) ?_
  split_ifs <;> simp

/-- A CYCLE below the budget keeps the invariant. -/
theorem StateInv.sampled {s : State} (h : StateInv s) (hr : s.rst = false) (hd : ¬BudgetDue s) :
    StateInv (setCounter (BitVec.ofNat 8 (s.c.toNat + s.cfg.step)) (sampleKeys s)) where
  legal := by simpa using h.legal
  canonical := Memory.wf_sampleKeys h.canonical
  tableKeys := by simpa using sampleKeys_tableKeys h.tableKeys
  bufKeys := by simpa using h.bufKeys
  used := by simpa using h.used
  valid := by simpa using h.valid
  counter := by
    obtain ⟨hdvd, -⟩ := h.counter
    rw [setCounter_c, counter_toNat_of_not_due h.legal hd, setCounter_cfg, sampleKeys_cfg]
    exact ⟨dvd_add hdvd dvd_rfl, Nat.lt_of_not_le hd⟩
  counts := by
    intro k hk
    rw [setCounter_cfg, sampleKeys_cfg] at hk ⊢
    rw [setCounter_c, counter_toNat_of_not_due h.legal hd, readEntry_setCounter,
      count_sampleKeys (noCountAtLimit_of_inv h) hk]
    exact countWithThis_mul_step_le h hk
  held := fun hc => absurd (hr.symm.trans (by simpa using hc)) Bool.false_ne_true

/-- A CYCLE that assesses keeps the invariant. -/
theorem StateInv.assessed {s : State} (h : StateInv s) (hr : s.rst = false) : StateInv (assess (sampleKeys s)) := by
  obtain ⟨⟨-, hn⟩, hb, -, -, hmax, -⟩ := h.legal
  have hb' : (sampleKeys s).cfg.b ≤ 65535 := by rwa [sampleKeys_cfg]
  have hcfg : (assess (sampleKeys s)).cfg = s.cfg := by rw [assess_cfg, sampleKeys_cfg]
  constructor
  case legal => rw [hcfg]; exact h.legal
  case canonical => exact Memory.wf_assess (Memory.wf_sampleKeys h.canonical)
  case tableKeys =>
    intro e he
    rw [hcfg]
    rcases mem_assess_table he with hk | hm
    · rw [sampleKeys_cfg] at hk
      exact mem_keys.1 hk
    · exact sampleKeys_tableKeys h.tableKeys e hm
  case bufKeys =>
    intro e he
    rw [hcfg]
    rcases mem_assess_buf he with hm | ⟨hlt, k, hk, hv⟩
    · rw [sampleKeys_buf] at hm
      exact h.bufKeys e hm
    · rw [sampleKeys_cfg] at hk hlt
      have hk := mem_keys.1 hk
      rw [hv, BitVec.toNat_ofNat, Nat.mod_eq_of_lt (by omega)]
      exact ⟨hlt, hk⟩
  case used =>
    have hused := (assess_appended (sampleKeys s) hb').used
    have := h.used
    rw [sampleKeys_cfg, sampleKeys_u] at hused
    rw [hcfg, hused]
    omega
  case valid =>
    intro i hi
    refine readSlot_assess_isSome hb' ?_
    by_cases hlt : i < s.u.toNat
    · exact .inl (by simpa using h.valid i hlt)
    · exact .inr ⟨by rw [sampleKeys_u]; exact Nat.le_of_not_lt hlt, hi⟩
  case counter =>
    rw [assess_c, hcfg]
    exact ⟨dvd_zero _, hmax⟩
  case counts =>
    intro k hk
    rw [hcfg] at hk
    rw [readEntry_assess_sampleKeys (noCountAtLimit_of_inv h) hk]
    split_ifs <;> simp
  case held =>
    intro hc
    rw [assess_rst, sampleKeys_rst, hr] at hc
    cases hc

/-- Every command keeps the invariant while `rst` is released. -/
theorem StateInv.of_exec {i : Instr} {s t : State} (h : StateInv s) (hr : s.rst = false) (he : exec i s = .next t) :
    StateInv t := by
  obtain ⟨-, r, u', d, -, rfl | ⟨-, rfl⟩, rfl⟩ | ⟨-, -, hd, rfl⟩ | ⟨-, -, -, rfl⟩ := exec_cases he
  · exact h.with_ports _ _ _ _
  · exact h.with_used_zero.with_ports _ _ _ _
  · exact (h.sampled hr hd).with_ports _ _ _ _
  · exact (h.assessed hr).with_ports _ _ _ _

/-- A level of `rst` keeps the invariant (R220): asserting it gives the reset values, releasing it changes nothing more. -/
theorem StateInv.of_driveRst {s : State} (h : StateInv s) (level : Bool) : StateInv (driveRst level s) := by
  cases level with
  | true => exact stateInv_of_reset_values h.legal rfl rfl rfl rfl
  | false =>
    exact ⟨h.legal, h.canonical, h.tableKeys, h.bufKeys, h.used, h.valid, h.counter, h.counts,
      fun hc => absurd hc Bool.false_ne_true⟩

/-- Settles O40, along everything a step can do: levels of `rst` and commands keep the invariant, and every other step changes
ports alone. -/
theorem stepKeepsTheInvariant : Obligations.StepKeepsTheInvariant := by
  intro s t h hstep
  obtain ⟨-, rfl⟩ | ⟨level, rest, -, rfl⟩ | ⟨-, w, v, rest, -, rfl⟩ |
    ⟨hr, w, v, rest, -, ⟨e, -, rfl⟩ | ⟨i, -, hexec⟩⟩ := step_cases hstep
  · exact h
  · exact (h.with_ports s.scan rest s.responses s.draws).of_driveRst level
  · exact h.with_ports _ _ _ _
  · exact h.with_ports _ _ _ _
  · exact (h.with_ports v rest s.responses s.draws).of_exec hr hexec

/-- Under the invariant every command answers (R34 item 2, R101). -/
theorem StateInv.exec_answers {s : State} (h : StateInv s) (i : Instr) : ∃ t, exec i s = .next t := by
  by_cases hi : i = .cycle
  · exact ⟨_, hi ▸ exec_cycle_of_noCountAtLimit (noCountAtLimit_of_inv h)⟩
  · obtain ⟨r, u', d, -, -, he⟩ := exec_of_ne_cycle hi s
    exact ⟨_, he⟩

/-- Settles O41, by the host's next action: only a decoded command could stop, and under the invariant it answers. -/
theorem noStepStopsUnderTheInvariant : Obligations.NoStepStopsUnderTheInvariant := by
  intro s h
  match hp : s.pending with
  | [] => exact ⟨_, step_of_idle hp⟩
  | .rst level :: rest => exact ⟨_, step_of_rst hp⟩
  | .command w v :: rest =>
    rcases Bool.eq_false_or_eq_true s.rst with hr | hr
    · exact ⟨_, step_of_held hr hp⟩
    · rw [step_of_accepted hr hp]
      cases decode w with
      | error e => exact ⟨_, rfl⟩
      | ok i => exact (h.with_ports v rest s.responses s.draws).exec_answers i

/-- Settles O17: a slot below `U` holds a value, and a value a slot holds is a key index. -/
theorem validSlotsAnswerKeyIndices : Obligations.ValidSlotsAnswerKeyIndices := by
  intro s i h hi
  obtain ⟨v, hv⟩ := Option.isSome_iff_exists.1 (h.valid i.toNat hi)
  obtain ⟨hb, h1, hn⟩ := h.bufKeys _ (mem_of_cellLookup hv)
  exact ⟨v, h1, hn, exec_rdbuf_of_slot hb hv⟩

end Sys2Proof.Machine
end

section
/-! LATCH and the assessment (R24, R127). -/

namespace Sys2Proof.Machine

/-- The state `s'` differs from `s` in LATCH bits of the table only (R21). -/
structure SameUpToLatch (s s' : State) : Prop where
  frame : ∃ m, s' = { s with table := m }
  counts : ∀ k, (readEntry s' k).toNat % 128 = (readEntry s k).toNat % 128

theorem SameUpToLatch.cfg_eq {s s' : State} (h : SameUpToLatch s s') : s'.cfg = s.cfg := by
  obtain ⟨⟨m, rfl⟩, -⟩ := h
  rfl

/-- The comparator judges by the count alone (R122). -/
theorem pressed_eq_of_count {e e' : Byte} (p : Params) (h : e'.toNat % 128 = e.toNat % 128) :
    pressed p e' = pressed p e := by
  rw [Bool.eq_iff_iff, pressed_iff, pressed_iff, h]

/-- The append does not look at the table (R125). -/
theorem appendKey_with_table (k : Nat) (s : State) (m : List Host.Cell) :
    appendKey k { s with table := m } = { appendKey k s with table := m } := by
  unfold appendKey
  split_ifs <;> rfl

/-- A key's turn of the assessment sees no LATCH (R24, R120). -/
theorem SameUpToLatch.of_assessKey {s s' : State} (h : SameUpToLatch s s') (k : Nat) :
    SameUpToLatch (assessKey s k) (assessKey s' k) := by
  obtain ⟨⟨m, rfl⟩, hcounts⟩ := h
  have hp := pressed_eq_of_count s.cfg (hcounts k)
  constructor
  case frame =>
    unfold assessKey
    dsimp only
    rw [hp, appendKey_with_table]
    split_ifs
    exacts [⟨_, rfl⟩, ⟨_, rfl⟩]
  case counts =>
    intro j
    rw [readEntry_assessKey, readEntry_assessKey, judgedEntry, judgedEntry]
    dsimp only
    rw [hp]
    split_ifs
    exacts [rfl, rfl, hcounts j]

theorem SameUpToLatch.of_foldl_assessKey {s s' : State} (h : SameUpToLatch s s') (ks : List Nat) :
    SameUpToLatch (ks.foldl assessKey s) (ks.foldl assessKey s') := by
  induction ks generalizing s s' with
  | nil => exact h
  | cons k ks ih => exact ih (h.of_assessKey k)

/-- The whole assessment sees no LATCH (R24, R127). -/
theorem SameUpToLatch.of_assess {s s' : State} (h : SameUpToLatch s s') : SameUpToLatch (assess s) (assess s') := by
  obtain ⟨⟨m, rfl⟩, hcounts⟩ := h
  exact SameUpToLatch.of_foldl_assessKey (s := setCounter 0 s) ⟨⟨m, rfl⟩, hcounts⟩ _

/-- The two states agree on the counts a CYCLE judges (R103). -/
theorem SameUpToLatch.countWithThis_eq {s s' : State} (h : SameUpToLatch s s') (k : Nat) :
    countWithThis s' k = countWithThis s k := by
  obtain ⟨⟨m, rfl⟩, hcounts⟩ := h
  rw [countWithThis, countWithThis, hcounts k]

/-- A CYCLE has a result in both of two such states, or in neither (R101). -/
theorem SameUpToLatch.noCountAtLimit {s s' : State} (h : SameUpToLatch s s') (hn : NoCountAtLimit s) :
    NoCountAtLimit s' := by
  obtain ⟨⟨m, rfl⟩, hcounts⟩ := h
  intro k hk hc
  rw [hcounts k]
  exact hn k hk hc

/-- The raw-count update of two such states gives two such states (R101). -/
theorem SameUpToLatch.of_sampleKeys {s s' : State} (h : SameUpToLatch s s') (hn : NoCountAtLimit s) :
    SameUpToLatch (sampleKeys s) (sampleKeys s') where
  frame := by
    obtain ⟨⟨m, rfl⟩, -⟩ := h
    obtain ⟨m₁, h₁⟩ := sampleKeys_eq s
    obtain ⟨m₂, h₂⟩ := sampleKeys_eq { s with table := m }
    exact ⟨m₂, by rw [h₁, h₂]⟩
  counts := fun k => by
    have hcfg := h.cfg_eq
    by_cases hk : k ∈ keys s.cfg.n
    · rw [count_sampleKeys hn hk, count_sampleKeys (h.noCountAtLimit hn) (hcfg ▸ hk), h.countWithThis_eq]
    · rw [readEntry_sampleKeys_of_not_mem hk, readEntry_sampleKeys_of_not_mem (hcfg ▸ hk), h.counts]

/-- Settles O24: the raw-count update and the assessment, run on states that differ in LATCH bits only, store the same keys
and give every key of 1..N the same entry. -/
theorem latchDoesNotFeedBack : Obligations.LatchDoesNotFeedBack := by
  intro s s' t hframe hcounts hdue h
  have hsame : SameUpToLatch s s' := ⟨⟨_, hframe⟩, hcounts⟩
  obtain ⟨hn, rfl⟩ := noCountAtLimit_of_exec h
  have hn' := hsame.noCountAtLimit hn
  have hcfg := hsame.cfg_eq
  have hdue' : BudgetDue s' := by
    rw [hframe]
    exact hdue
  refine ⟨_, exec_cycle_of_noCountAtLimit hn', ?_⟩
  rw [finishCycle_of_due hdue, finishCycle_of_due hdue']
  constructor
  · obtain ⟨m, hm⟩ := (hsame.of_sampleKeys hn).of_assess.frame
    rw [hm]
    rfl
  · intro k h1 hk
    have hmem : k ∈ keys s.cfg.n := mem_keys.2 ⟨h1, hk⟩
    rw [readEntry_respond, readEntry_respond, readEntry_assess_sampleKeys hn hmem,
      readEntry_assess_sampleKeys hn' (hcfg ▸ hmem), hcfg, hsame.countWithThis_eq]

end Sys2Proof.Machine
end

section
/-! The CYCLEs of one window (R22, R107). -/

namespace Sys2Proof.Machine

/-- What the CYCLEs of these SCAN vectors did, none of which assessed (R22, R23, R101, R102): `C` rose by STEP for each, each
key's CNT by one for each in which it was closed, and each CYCLE answered with READY 0. -/
structure Sampled (scans : List Nat) (s t : State) : Prop where
  inv : StateInv t
  rst : t.rst = false
  cfg : t.cfg = s.cfg
  u : t.u = s.u
  buf : t.buf = s.buf
  responses : t.responses = List.replicate scans.length ⟨.ok, 0, false⟩ ++ s.responses
  counter : t.c.toNat = s.c.toNat + scans.length * s.cfg.step
  counts : ∀ k ∈ keys s.cfg.n, (readEntry t k).toNat % 128 = (readEntry s k).toNat % 128 + closedSamples scans k
  latches : ∀ k, (readEntry t k).toNat / 128 = (readEntry s k).toNat / 128

@[simp] theorem closedSamples_nil (k : Nat) : closedSamples [] k = 0 := rfl

/-- The closed samples of a first vector and the rest (R22). -/
theorem closedSamples_cons (v : Nat) (vs : List Nat) (k : Nat) :
    closedSamples (v :: vs) k = closedSamples vs k + if v.testBit (k - 1) then 1 else 0 :=
  List.countP_cons

/-- The closed samples of the first vectors and a last one (R22). -/
theorem closedSamples_concat (vs : List Nat) (v k : Nat) :
    closedSamples (vs ++ [v]) k = closedSamples vs k + if v.testBit (k - 1) then 1 else 0 := by
  rw [closedSamples, List.countP_append, ← closedSamples, List.countP_singleton]

/-- One CYCLE below the budget (R101 to R103). -/
theorem exec_cycle_sampled {s : State} (v : Nat) (h : StateInv s) (hr : s.rst = false)
    (hd : s.c.toNat + s.cfg.step < s.cfg.maxSamples) :
    ∃ t, exec .cycle { s with scan := v } = .next t ∧ Sampled [v] s t := by
  have hv : StateInv { s with scan := v } := h.with_ports v s.pending s.responses s.draws
  have hn := noCountAtLimit_of_inv hv
  have hd' : ¬BudgetDue { s with scan := v } := Nat.not_le.2 hd
  have he := exec_cycle_of_noCountAtLimit hn
  rw [finishCycle_of_not_due hd'] at he
  exact ⟨_, he, {
    inv := hv.of_exec hr he
    rst := by simpa using hr
    cfg := by simp
    u := by simp
    buf := by simp
    responses := by simp
    counter := by
      have := counter_toNat_of_not_due h.legal (Nat.not_le.2 hd)
      simpa using this
    counts := fun k hk => by
      rw [closedSamples_cons, closedSamples_nil, Nat.zero_add]
      exact count_sampleKeys hn hk
    latches := fun k => latch_sampleKeys hn k }⟩

/-- CYCLEs that stay below the budget all answer, and count their closed samples (R22, R23). -/
theorem runCycles_sampled {s : State} (scans : List Nat) (h : StateInv s) (hr : s.rst = false)
    (hd : s.c.toNat + scans.length * s.cfg.step < s.cfg.maxSamples) :
    ∃ t, runCycles scans s = .next t ∧ Sampled scans s t := by
  induction scans generalizing s with
  | nil => exact ⟨s, rfl, h, hr, rfl, rfl, rfl, rfl, by simp, fun _ _ => rfl, fun _ => rfl⟩
  | cons v vs ih =>
    rw [List.length_cons, Nat.add_one_mul] at hd
    obtain ⟨a, ha, hfirst⟩ := exec_cycle_sampled v h hr (by omega)
    have hc : a.c.toNat = s.c.toNat + s.cfg.step := by simpa using hfirst.counter
    obtain ⟨t, ht, hrest⟩ := ih hfirst.inv hfirst.rst (by rw [hc, hfirst.cfg]; omega)
    refine ⟨t, by rw [runCycles, ha]; exact ht, ?_⟩
    exact {
      inv := hrest.inv
      rst := hrest.rst
      cfg := hrest.cfg.trans hfirst.cfg
      u := hrest.u.trans hfirst.u
      buf := hrest.buf.trans hfirst.buf
      responses := by simp [hrest.responses, hfirst.responses, List.replicate_succ']
      counter := by
        rw [hrest.counter, hc, hfirst.cfg, List.length_cons, Nat.add_one_mul]
        omega
      counts := fun k hk => by
        rw [hrest.counts k (hfirst.cfg ▸ hk), hfirst.counts k hk, closedSamples_cons v vs, closedSamples_cons v [],
          closedSamples_nil]
        omega
      latches := fun k => (hrest.latches k).trans (hfirst.latches k) }

/-- At a window start every count is 0 (R34 item 2). -/
theorem count_eq_zero_of_window_start {s : State} (h : StateInv s) (hc : s.c = 0) {k : Nat} (hk : k ∈ keys s.cfg.n) :
    (readEntry s k).toNat % 128 = 0 := by
  obtain ⟨-, -, hstep, -⟩ := h.legal
  have hle := h.counts k hk
  rw [hc] at hle
  exact (Nat.mul_eq_zero.1 (Nat.le_zero.1 hle)).resolve_right (by omega)

/-- From a window start, fewer than W CYCLEs count the closed samples of the window (R22, R107). -/
theorem runCycles_of_lt_window {s : State} {scans : List Nat} (h : StateInv s) (hr : s.rst = false) (hc : s.c = 0)
    (hlen : scans.length < s.cfg.window) :
    ∃ t, runCycles scans s = .next t ∧ Sampled scans s t ∧
      ∀ k ∈ keys s.cfg.n, (readEntry t k).toNat % 128 = closedSamples scans k := by
  have hd : s.c.toNat + scans.length * s.cfg.step < s.cfg.maxSamples := by
    simpa [hc] using (lt_window_iff h _).1 hlen
  obtain ⟨t, ht, hsampled⟩ := runCycles_sampled scans h hr hd
  refine ⟨t, ht, hsampled, fun k hk => ?_⟩
  rw [hsampled.counts k hk, count_eq_zero_of_window_start h hc hk, Nat.zero_add]

/-- Settles O28: the counts start at 0, and no CYCLE of the window assesses. -/
theorem countIsClosedSamplesOfTheWindow : Obligations.CountIsClosedSamplesOfTheWindow := by
  intro s scans h hr hc hlen
  obtain ⟨t, ht, hsampled, hcounts⟩ := runCycles_of_lt_window h hr hc hlen
  exact ⟨t, ht, hsampled.u, hsampled.buf, fun k h1 hk => ⟨hcounts k (mem_keys.2 ⟨h1, hk⟩), hsampled.latches k⟩⟩

/-- Settles O29: all CYCLEs but the last only count, and the last one judges by the counts. -/
theorem windowJudgesByItsClosedSamples : Obligations.WindowJudgesByItsClosedSamples := by
  intro s scans h hr hc hlen
  have hwindow : 0 < s.cfg.window := (lt_window_iff h 0).2 (by simpa [hc] using h.counter.2)
  obtain rfl | ⟨vs, v, rfl⟩ := List.eq_nil_or_concat' scans
  · exact absurd hlen (by simpa using hwindow.ne)
  rw [List.length_append, List.length_singleton] at hlen
  obtain ⟨a, ha, hsampled, hcounts⟩ := runCycles_of_lt_window (scans := vs) h hr hc (by omega)
  have hn : NoCountAtLimit { a with scan := v } :=
    noCountAtLimit_of_inv (hsampled.inv.with_ports v a.pending a.responses a.draws)
  have hdue : BudgetDue { a with scan := v } := by
    have hover : ¬(vs.length + 1) * s.cfg.step < s.cfg.maxSamples :=
      fun hlt => absurd ((lt_window_iff h _).2 hlt) (by omega)
    have hac : a.c.toNat = vs.length * s.cfg.step := by simpa [hc] using hsampled.counter
    rw [BudgetDue, hsampled.cfg, hac, ← Nat.add_one_mul]
    exact Nat.le_of_not_lt hover
  have hlast := exec_cycle_of_noCountAtLimit hn
  rw [finishCycle_of_due hdue] at hlast
  refine ⟨_, by rw [runCycles_append _ ha, runCycles, hlast]; rfl, by simp, fun k h1 hk => ?_⟩
  have hmem : k ∈ keys s.cfg.n := mem_keys.2 ⟨h1, hk⟩
  have hcount : countWithThis { a with scan := v } k = closedSamples (vs ++ [v]) k := by
    rw [closedSamples_concat, ← hcounts k hmem]
    rfl
  rw [readEntry_respond, readEntry_assess_sampleKeys hn (by rwa [hsampled.cfg]), hcount, hsampled.cfg]

end Sys2Proof.Machine
end

section
/-! The step of an accepted command (R54, R58) and the response code of a decoded one (R52, R201). -/

namespace Sys2Proof.Machine

/-- Settles O5: of the two answers to an accepted word, this one is the decoded command's. -/
theorem stepRunsTheDecodedCommand : Obligations.StepRunsTheDecodedCommand := by
  intro s w v rest i hr hp hd
  rw [step_of_accepted hr hp, hd]

/-- RDTBL's range check is that of its index space (R50, R161). -/
theorem wellFormed_rdtbl (k : Half) (s : State) : (Instr.rdtbl k).WellFormed s.cfg = inTable s (indexOf k) := rfl

/-- RDBUF's range check is that of its index space (R50, R141). -/
theorem wellFormed_rdbuf (j : Half) (s : State) : (Instr.rdbuf j).WellFormed s.cfg = inBuffer s (indexOf j) := rfl

/-- RDBUF in range answers OK, whether the slot holds a value or not (R141). -/
theorem answerSlot_answers_ok (j : Nat) (s : State) : ∃ r, answered s (answerSlot j s) r ∧ r.resp = .ok := by
  rw [answerSlot]
  cases readSlot s j with
  | none => exact ⟨_, rfl, rfl⟩
  | some v => exact ⟨_, rfl, rfl⟩

/-- A CYCLE that answers, answers OK, whether it assesses or not (R105). -/
theorem exec_cycle_answers_ok {s t : State} (h : exec .cycle s = .next t) : ∃ r, answered s t r ∧ r.resp = .ok := by
  obtain ⟨hi, -⟩ | ⟨-, -, -, rfl⟩ | ⟨-, -, -, rfl⟩ := exec_cases h
  · exact absurd rfl hi
  · exact ⟨⟨.ok, 0, false⟩, by simp [answered], rfl⟩
  · exact ⟨⟨.ok, 0, true⟩, by simp [answered], rfl⟩

/-- The one response of a command that answers: its code is OK for an index in its space or no index, and RANGE otherwise
(R52, R70, R201). -/
theorem exec_answers_code {i : Instr} {s t : State} (h : exec i s = .next t) :
    ∃ r, answered s t r ∧ r.resp = if i.WellFormed s.cfg then .ok else .range := by
  cases i with
  | cycle => exact exec_cycle_answers_ok h
  | rdtbl k =>
    obtain rfl := Host.Outcome.next.inj h
    rw [wellFormed_rdtbl]
    split_ifs
    exacts [⟨_, rfl, rfl⟩, ⟨_, rfl, rfl⟩]
  | rdbuf j =>
    obtain rfl := Host.Outcome.next.inj h
    rw [wellFormed_rdbuf]
    split_ifs
    exacts [answerSlot_answers_ok _ s, ⟨_, rfl, rfl⟩]
  | nop | rdused | rdcyc | clrused =>
    obtain rfl := Host.Outcome.next.inj h
    exact ⟨_, rfl, rfl⟩

/-- Settles O31: OK and RANGE are different codes, and the index's place decides between them. -/
theorem onlyOutOfRangeIndexesErr : Obligations.OnlyOutOfRangeIndexesErr := by
  intro i s t h
  obtain ⟨r, hr, hcode⟩ := exec_answers_code h
  refine ⟨r, hr, ?_⟩
  rw [hcode]
  cases i.WellFormed s.cfg <;> decide

end Sys2Proof.Machine
end

section
/-! The decoder (R71 to R73, R76, R77): the words that decode to a command, and the words that decode to none. -/

namespace Sys2Proof

/-- A command without operand is decoded from `ARG` = 0 only (R73). -/
theorem noOperand_eq_ok_iff {arg : Half} {i j : Instr} : noOperand arg i = .ok j ↔ arg = 0 ∧ i = j := by
  rcases noOperand_cases arg i with ⟨ha, h⟩ | ⟨ha, h⟩ <;> rw [h]
  · simp only [ha, true_and, Except.ok.injEq]
  · simp only [ha, false_and, reduceCtorEq]

/-- A command without operand is illegal with any other `ARG` (R73). -/
theorem noOperand_error_iff {arg : Half} {i : Instr} : (∃ e, noOperand arg i = .error e) ↔ arg ≠ 0 := by
  rcases noOperand_cases arg i with ⟨ha, h⟩ | ⟨ha, h⟩ <;> rw [h]
  · simp [ha]
  · simpa using ha

/-- The opcode map sends a command's own `OP` and `ARG` to that command (R76). -/
theorem decodeOp_opcode_operand (i : Instr) : decodeOp (opcode i) (operand i) = .ok i := by
  cases i <;> rfl

/-- The opcode map sends no other `OP` and `ARG` to a command (R73, R76). -/
theorem fields_of_decodeOp {op : BitVec 4} {arg : Half} {i : Instr} (h : decodeOp op arg = .ok i) :
    op = opcode i ∧ arg = operand i := by
  unfold decodeOp at h
  split at h
  case h_3 hop | h_4 hop =>
    obtain rfl := Except.ok.inj h
    exact ⟨BitVec.eq_of_toNat_eq hop, rfl⟩
  case h_8 => cases h
  case h_1 hop | h_2 hop | h_5 hop | h_6 hop | h_7 hop =>
    obtain ⟨rfl, rfl⟩ := noOperand_eq_ok_iff.1 h
    exact ⟨BitVec.eq_of_toNat_eq hop, rfl⟩

/-- The `OP` and `ARG` that are no command: a reserved `OP`, or an `ARG` other than 0 where no operand is taken (R77). -/
theorem decodeOp_error_iff {op : BitVec 4} {arg : Half} :
    (∃ e, decodeOp op arg = .error e) ↔ 7 ≤ op.toNat ∨ op.toNat ∈ [0, 1, 4, 5, 6] ∧ arg ≠ 0 := by
  unfold decodeOp
  split
  case h_3 hop | h_4 hop => simp [hop]
  case h_8 =>
    simp only [imp_false] at *
    exact iff_of_true ⟨_, rfl⟩ (.inl (by omega))
  case h_1 hop | h_2 hop | h_5 hop | h_6 hop | h_7 hop => simp [hop, noOperand_error_iff]

/-- A word decodes to a command exactly when its three fields are that command's (R71, R76). -/
theorem decode_eq_ok_iff {w : CmdWord} {i : Instr} :
    decode w = .ok i ↔ opField w = opcode i ∧ rsvField w = 0 ∧ argField w = operand i := by
  unfold decode
  split_ifs with hrsv
  · constructor
    · intro h
      obtain ⟨hop, harg⟩ := fields_of_decodeOp h
      exact ⟨hop, hrsv, harg⟩
    · rintro ⟨hop, -, harg⟩
      rw [hop, harg, decodeOp_opcode_operand]
  · exact iff_of_false (by simp) fun ⟨_, h, _⟩ => hrsv h

/-- The three fields are the whole word (R71). -/
theorem eq_of_fields_eq {w w' : CmdWord} (hop : opField w = opField w') (hrsv : rsvField w = rsvField w')
    (harg : argField w = argField w') : w = w' := by
  simp only [← BitVec.toNat_inj, opField_toNat, rsvField_toNat, argField_toNat] at hop hrsv harg ⊢
  omega

/-- A command's word holds its `OP`, 0 and its index, or 0, in the three fields (R71). -/
theorem fields_encode (i : Instr) :
    opField (encode i) = opcode i ∧ rsvField (encode i) = 0 ∧ argField (encode i) = operand i :=
  Laws.EncodingFields.fields_of_append _ _ _

/-- The words that decode to no command are those of R77. -/
theorem decode_error_iff (w : CmdWord) : (∃ e, decode w = .error e) ↔ Machine.IllegalWord w := by
  rw [Machine.IllegalWord, ← opField_toNat, ne_eq, ne_eq, ← rsvField_eq_zero, ← argField_eq_zero]
  unfold decode
  split_ifs with hrsv
  · simp only [decodeOp_error_iff, hrsv, not_true, false_or, ne_eq]
  · exact iff_of_true ⟨_, rfl⟩ (.inr (.inl hrsv))

/-- Settles O1: the fields of a command's word are that command's. -/
theorem decodeOfEncodeIsTheCommand : Obligations.DecodeOfEncodeIsTheCommand :=
  fun i => decode_eq_ok_iff.2 (fields_encode i)

/-- Settles O2: the word and the command's word have the same fields. -/
theorem everyDecodedWordIsItsEncoding : Obligations.EveryDecodedWordIsItsEncoding := by
  intro w i h
  obtain ⟨hop, hrsv, harg⟩ := decode_eq_ok_iff.1 h
  obtain ⟨hop', hrsv', harg'⟩ := fields_encode i
  exact eq_of_fields_eq (hop'.trans hop.symm) (hrsv'.trans hrsv.symm) (harg'.trans harg.symm)

/-- Settles O3: the decoder's errors are R77's causes, and the step answers any error with ILLEGAL. -/
theorem exactlyTheIllegalWordsAreRejected : Obligations.ExactlyTheIllegalWordsAreRejected := by
  intro w
  refine ⟨decode_error_iff w, fun s v rest hr hp hillegal => ?_⟩
  obtain ⟨e, he⟩ := (decode_error_iff w).2 hillegal
  rw [Machine.step_of_accepted hr hp, he]
  rfl

/-- Settles O4, by evaluating the decoder on the nine words. -/
theorem listedWordsDecode : Obligations.ListedWordsDecode := by
  unfold Obligations.ListedWordsDecode
  decide

end Sys2Proof
end

section
/-! The SCAN port (R74): what a change of its vector changes. -/

namespace Sys2Proof.Machine

/-- Two vectors that agree on the keys 1..N close the same keys (R74). -/
theorem closed_with_scan {s : State} {v : Nat}
    (h : ∀ k, 1 ≤ k → k ≤ s.cfg.n → v.testBit (k - 1) = s.scan.testBit (k - 1)) (k : Nat) :
    closed { s with scan := v } k = closed s k := by
  by_cases hk : k ∈ keys s.cfg.n
  · obtain ⟨h1, hn⟩ := mem_keys.1 hk
    rw [closed_of_mem hk, closed_of_mem (s := { s with scan := v }) hk]
    exact h k h1 hn
  · rw [not_closed_of_not_mem hk, not_closed_of_not_mem (s := { s with scan := v }) hk]

/-- A lane looks at no more of SCAN than whether its key is closed (R101). -/
theorem sampleKey_with_scan {s : State} {v k : Nat} (h : closed { s with scan := v } k = closed s k) :
    sampleKey { s with scan := v } k = { sampleKey s k with scan := v } := by
  unfold sampleKey
  rw [h]
  split_ifs <;> rfl

/-- No lane looks at SCAN but for its own key (R101). -/
theorem foldl_sampleKey_with_scan (ks : List Nat) {s : State} {v : Nat}
    (h : ∀ k, closed { s with scan := v } k = closed s k) :
    ks.foldl sampleKey { s with scan := v } = { ks.foldl sampleKey s with scan := v } := by
  induction ks generalizing s with
  | nil => rfl
  | cons k ks ih =>
    rw [List.foldl_cons, List.foldl_cons, sampleKey_with_scan (h k)]
    refine ih fun j => ?_
    rw [← sampleKey_with_scan (h k), closed_sampleKey, closed_sampleKey, h j]

/-- The append does not look at SCAN (R125). -/
theorem appendKey_with_scan (k : Nat) (s : State) (v : Nat) :
    appendKey k { s with scan := v } = { appendKey k s with scan := v } := by
  unfold appendKey
  split_ifs <;> rfl

/-- A key's turn of the assessment does not look at SCAN (R120). -/
theorem assessKey_with_scan (s : State) (v k : Nat) :
    assessKey { s with scan := v } k = { assessKey s k with scan := v } := by
  unfold assessKey
  rw [appendKey_with_scan]
  change (if pressed s.cfg (readEntry s k) then _ else _) = _
  split_ifs <;> rfl

theorem foldl_assessKey_with_scan (ks : List Nat) (s : State) (v : Nat) :
    ks.foldl assessKey { s with scan := v } = { ks.foldl assessKey s with scan := v } := by
  induction ks generalizing s with
  | nil => rfl
  | cons k ks ih => rw [List.foldl_cons, List.foldl_cons, assessKey_with_scan, ih]

/-- The assessment does not look at SCAN (R120). -/
theorem assess_with_scan (s : State) (v : Nat) : assess { s with scan := v } = { assess s with scan := v } :=
  foldl_assessKey_with_scan _ (setCounter 0 s) v

/-- After the raw-count update a CYCLE does not look at SCAN (R102 to R105). -/
theorem finishCycle_with_scan (s : State) (v : Nat) :
    finishCycle { s with scan := v } = { finishCycle s with scan := v } := by
  unfold finishCycle
  rw [assess_with_scan]
  change (if budgetReached s.cfg (steppedCounter s) then _ else _) = _
  split_ifs <;> rfl

/-- CYCLE looks at SCAN for the keys 1..N only (R74). -/
theorem exec_cycle_with_scan {s t : State} {v : Nat}
    (h : ∀ k, 1 ≤ k → k ≤ s.cfg.n → v.testBit (k - 1) = s.scan.testBit (k - 1)) (he : exec .cycle s = .next t) :
    exec .cycle { s with scan := v } = .next { t with scan := v } := by
  obtain ⟨hn, rfl⟩ := noCountAtLimit_of_exec he
  have hn' : NoCountAtLimit { s with scan := v } := fun k hk hc => by
    obtain ⟨h1, hkn⟩ := mem_keys.1 hk
    exact hn k hk ((h k h1 hkn).symm.trans hc)
  have hsampled : sampleKeys { s with scan := v } = { sampleKeys s with scan := v } :=
    foldl_sampleKey_with_scan _ (closed_with_scan h)
  rw [exec_cycle_of_noCountAtLimit hn', hsampled, finishCycle_with_scan]

/-- RDBUF in range does not look at SCAN (R141). -/
theorem answerSlot_with_scan (s : State) (v j : Nat) :
    answerSlot j { s with scan := v } = { answerSlot j s with scan := v } := by
  unfold answerSlot
  rw [show readSlot { s with scan := v } j = readSlot s j from rfl]
  cases readSlot s j <;> rfl

/-- A command other than CYCLE does not look at SCAN (R74). -/
theorem exec_with_scan {i : Instr} {s t : State} (v : Nat) (hi : i ≠ .cycle) (he : exec i s = .next t) :
    exec i { s with scan := v } = .next { t with scan := v } := by
  cases i with
  | cycle => exact absurd rfl hi
  | rdtbl k =>
    obtain rfl := Host.Outcome.next.inj he
    simp only [exec, execRdtbl]
    rw [show inTable { s with scan := v } (indexOf k) = inTable s (indexOf k) from rfl]
    split_ifs <;> rfl
  | rdbuf j =>
    obtain rfl := Host.Outcome.next.inj he
    simp only [exec, execRdbuf, answerSlot_with_scan]
    rw [show inBuffer { s with scan := v } (indexOf j) = inBuffer s (indexOf j) from rfl]
    split_ifs <;> rfl
  | nop | rdused | rdcyc | clrused =>
    obtain rfl := Host.Outcome.next.inj he
    rfl

/-- Settles O26: no operation but the raw-count update looks at SCAN, and that one at the keys 1..N only. -/
theorem scanMattersToCycleAtKeysOnly : Obligations.ScanMattersToCycleAtKeysOnly :=
  ⟨fun _ _ _ v hi he => exec_with_scan v hi he, fun _ _ _ h he => exec_cycle_with_scan h he⟩

end Sys2Proof.Machine
end

section
/-! Responses (R70, R75): one for each accepted word, in the format of R75, and a run of any command words. -/

namespace Sys2Proof.Machine

/-- A step or command adds at most one response (R70). -/
theorem answered_unique {s t : State} {r r' : Response} (h : answered s t r) (h' : answered s t r') : r = r' :=
  (List.cons.inj (h.symm.trans h')).1

/-- READY is 1 exactly for a CYCLE that assesses (R30, R75). -/
theorem exec_answers_ready {i : Instr} {s t : State} {r : Response} (h : exec i s = .next t) (hr : answered s t r) :
    r.ready = true ↔ i = .cycle ∧ BudgetDue s := by
  obtain ⟨hi, r', _, _, hready, -, rfl⟩ | ⟨rfl, -, hd, rfl⟩ | ⟨rfl, -, hd, rfl⟩ := exec_cases h
  · obtain rfl := answered_unique hr (r' := r') rfl
    simp [hready, hi]
  · obtain rfl := answered_unique hr (r' := ⟨.ok, 0, false⟩) (by simp [answered])
    simp [hd]
  · obtain rfl := answered_unique hr (r' := ⟨.ok, 0, true⟩) (by simp [answered])
    simp [hd]

/-- A CYCLE that answers, answers RDATA 0 (R75, R105). -/
theorem exec_cycle_answers_zero {s t : State} (h : exec .cycle s = .next t) : ∃ r, answered s t r ∧ r.rdata = 0 := by
  obtain ⟨hi, -⟩ | ⟨-, -, -, rfl⟩ | ⟨-, -, -, rfl⟩ := exec_cases h
  · exact absurd rfl hi
  · exact ⟨⟨.ok, 0, false⟩, by simp [answered], rfl⟩
  · exact ⟨⟨.ok, 0, true⟩, by simp [answered], rfl⟩

/-- RDATA is 0 for NOP, CYCLE, CLRUSED and errors (R75). -/
theorem exec_answers_rdata {i : Instr} {s t : State} (h : exec i s = .next t) :
    ∃ r, answered s t r ∧ ((i = .nop ∨ i = .cycle ∨ i = .clrused ∨ r.resp ≠ .ok) → r.rdata = 0) := by
  cases i with
  | cycle =>
    obtain ⟨r, hr, hzero⟩ := exec_cycle_answers_zero h
    exact ⟨r, hr, fun _ => hzero⟩
  | nop | clrused =>
    obtain rfl := Host.Outcome.next.inj h
    exact ⟨_, rfl, fun _ => rfl⟩
  | rdused | rdcyc =>
    obtain rfl := Host.Outcome.next.inj h
    exact ⟨_, rfl, by simp⟩
  | rdtbl k =>
    obtain rfl := Host.Outcome.next.inj h
    split_ifs
    · exact ⟨_, rfl, by simp⟩
    · exact ⟨_, rfl, fun _ => rfl⟩
  | rdbuf j =>
    obtain rfl := Host.Outcome.next.inj h
    split_ifs
    · obtain ⟨r, hr, hok⟩ := answerSlot_answers_ok (indexOf j) s
      exact ⟨r, hr, by simp [hok]⟩
    · exact ⟨_, rfl, fun _ => rfl⟩

/-- Settles O30, READY along everything a command can do, RDATA command by command. -/
theorem responsesFollowTheirFormat : Obligations.ResponsesFollowTheirFormat := by
  refine ⟨fun i s t h => ?_, rfl, rfl, rfl, fun r => by cases r <;> decide⟩
  obtain ⟨r, hr, hzero⟩ := exec_answers_rdata h
  exact ⟨r, hr, exec_answers_ready h hr, hzero⟩

/-- Settles O32: an illegal word is answered by the step itself, any other by its command. -/
theorem eachAcceptedWordYieldsOneResponse : Obligations.EachAcceptedWordYieldsOneResponse := by
  intro s t w v rest hr hp h
  rw [step_of_accepted hr hp] at h
  cases hd : decode w with
  | error e =>
    rw [hd] at h
    obtain rfl := Host.Outcome.next.inj h
    exact ⟨rfl, hr, _, rfl⟩
  | ok i =>
    rw [hd] at h
    obtain ⟨-, hpending, hrst, -⟩ := exec_keeps_ports h
    obtain ⟨r, hanswered, -⟩ := exec_answers_code h
    exact ⟨hpending, hrst.trans hr, r, hanswered⟩

/-- The observer sees as many responses as were given (R229). -/
theorem length_observation_responses (s : State) : (observation s).responses.length = s.responses.length :=
  List.length_reverse

/-- Under the invariant the next command word is taken off and answered, and the invariant is kept (R70). -/
theorem StateInv.step_command {s : State} {w : CmdWord} {v : Nat} {rest : List HostAction} (h : StateInv s)
    (hr : s.rst = false) (hp : s.pending = .command w v :: rest) :
    ∃ t, step s = .next t ∧ StateInv t ∧ t.rst = false ∧ t.pending = rest ∧
      t.responses.length = s.responses.length + 1 := by
  obtain ⟨t, ht⟩ := noStepStopsUnderTheInvariant s h
  obtain ⟨hpending, hrst, r, hanswered⟩ := eachAcceptedWordYieldsOneResponse s t w v rest hr hp ht
  exact ⟨t, ht, stepKeepsTheInvariant s t h ht, hrst, hpending, congrArg List.length hanswered⟩

/-- A run of command words, by induction on the words: each step takes one off and answers it (R70, R229). -/
theorem run_commands (as : List HostAction) (hcommands : ∀ a ∈ as, ∃ w v, a = .command w v) {s : State}
    (h : StateInv s) (hr : s.rst = false) (hp : s.pending = as) :
    ∃ t : State, core.run as.length s = .next t ∧ t.pending = [] ∧ StateInv t ∧
      t.responses.length = s.responses.length + as.length := by
  induction as generalizing s with
  | nil => exact ⟨s, rfl, hp, h, rfl⟩
  | cons a rest ih =>
    obtain ⟨⟨w, v, rfl⟩, hrest⟩ := List.forall_mem_cons.1 hcommands
    obtain ⟨t, ht, hinv, hrst, hpending, hlength⟩ := h.step_command hr hp
    obtain ⟨u, hrun, hempty, hinv', hlength'⟩ := ih hrest hinv hrst hpending
    refine ⟨u, (run_succ_of_step core rest.length ht).trans hrun, hempty, hinv', ?_⟩
    rw [hlength', hlength, List.length_cons]
    omega

/-- Settles O42: the run answers every word, and the observer sees every response. -/
theorem runAnswersEveryCommand : Obligations.RunAnswersEveryCommand := by
  intro s h hr hcommands
  obtain ⟨t, hrun, hempty, hinv, hlength⟩ := run_commands s.pending hcommands h hr rfl
  refine ⟨t, hrun, hempty, hinv, ?_⟩
  rw [length_observation_responses s, length_observation_responses t, hlength]

end Sys2Proof.Machine
end

section
/-! CYCLE (R101 to R105): its word, its fault, and its effect below the budget. -/

namespace Sys2Proof.Machine

/-- A command without operand has the one word whose `RSV` and `ARG` are 0 (R72, R73). -/
theorem noOperandEncoding_opcode {i : Instr} (harg : operand i = 0) (hop : (opcode i).toNat ∈ [0, 1, 4, 5, 6]) :
    NoOperandEncoding (opcode i).toNat i := by
  intro w hw
  constructor
  · intro hrest
    refine decode_eq_ok_iff.2 ⟨BitVec.eq_of_toNat_eq ((opField_toNat w).trans hw), (rsvField_eq_zero w).2 ?_, ?_⟩
    · omega
    · rw [harg, argField_eq_zero]
      omega
  · intro hrest
    refine (decode_error_iff w).2 ?_
    by_cases hrsv : w.toNat / 2 ^ 16 % 2 ^ 12 = 0
    · exact .inr (.inr ⟨hw ▸ hop, by omega⟩)
    · exact .inr (.inl hrsv)

/-- CYCLE stops exactly where a closed key stands at the limit (R101, R210). -/
theorem exec_cycle_fault_iff (s : State) : exec .cycle s = .fault .cntOverflow ↔ ¬NoCountAtLimit s := by
  refine ⟨fun h hn => ?_, exec_cycle_of_countAtLimit⟩
  rw [exec_cycle_of_noCountAtLimit hn] at h
  cases h

/-- CYCLE below the budget (R102, R105). -/
theorem exec_cycle_of_not_due {s : State} (h : NoCountAtLimit s) (hd : ¬BudgetDue s) :
    exec .cycle s =
      .next (respond .ok 0 false (setCounter (BitVec.ofNat 8 (s.c.toNat + s.cfg.step)) (sampleKeys s))) := by
  rw [exec_cycle_of_noCountAtLimit h, finishCycle_of_not_due hd]

/-- CYCLE at the budget (R103 to R105). -/
theorem exec_cycle_of_due {s : State} (h : NoCountAtLimit s) (hd : BudgetDue s) :
    exec .cycle s = .next (respond .ok 0 true (assess (sampleKeys s))) := by
  rw [exec_cycle_of_noCountAtLimit h, finishCycle_of_due hd]

/-- Settles O23: the keys at the limit are those the overflow test finds. -/
theorem cycleFaultsExactlyOnCountOverflow : Obligations.CycleFaultsExactlyOnCountOverflow := by
  intro s
  rw [exec_cycle_fault_iff]
  simp only [NoCountAtLimit, mem_keys, not_forall, not_not, exists_prop, and_assoc]

/-- Settles O18, by the raw-count update lane by lane; `C + STEP` fits in the Cycle Counter. -/
theorem cycleBelowBudgetCountsSamples : Obligations.CycleBelowBudgetCountsSamples := by
  refine ⟨noOperandEncoding_opcode (i := .cycle) rfl (by decide), fun s hlegal hn hd => ?_⟩
  refine ⟨_, exec_cycle_of_not_due hn hd, ?closedKeys, ?openKeys, ?outside, ?counter, ?frame⟩
  case closedKeys =>
    intro k h1 hk hc
    rw [readEntry_respond, readEntry_setCounter, count_sampleKeys hn (mem_keys.2 ⟨h1, hk⟩), countWithThis, if_pos hc]
    exact ⟨rfl, latch_sampleKeys hn k⟩
  case openKeys =>
    intro k h1 hk hc
    rw [readEntry_respond, readEntry_setCounter, readEntry_sampleKeys, closed_of_mem (mem_keys.2 ⟨h1, hk⟩), hc,
      if_neg Bool.false_ne_true]
  case outside =>
    intro k hk
    refine readEntry_sampleKeys_of_not_mem fun hm => ?_
    have := mem_keys.1 hm
    omega
  case counter => exact counter_toNat_of_not_due hlegal hd
  case frame =>
    obtain ⟨m, hm⟩ := sampleKeys_eq s
    rw [hm]
    rfl

end Sys2Proof.Machine
end

section
/-! The length W of a window (R10, R107, R108): its CYCLEs' answers, and the counts it allows. -/

namespace Sys2Proof.Machine

/-- At the end of a window's first W - 1 CYCLEs the budget is due (R103, R107). -/
theorem Sampled.budgetDue {s t : State} {scans : List Nat} (hs : Sampled scans s t) (h : StateInv s) (hc : s.c = 0)
    (hlen : scans.length + 1 = s.cfg.window) : BudgetDue t := by
  have hover : ¬(scans.length + 1) * s.cfg.step < s.cfg.maxSamples :=
    fun hlt => absurd ((lt_window_iff h _).2 hlt) (by omega)
  have htc : t.c.toNat = scans.length * s.cfg.step := by simpa [hc] using hs.counter
  rw [BudgetDue, hs.cfg, htc, ← Nat.add_one_mul]
  exact Nat.le_of_not_lt hover

/-- A window is at least one CYCLE long (R10). -/
theorem window_pos {s : State} (h : StateInv s) : 0 < s.cfg.window := by
  obtain ⟨-, hlt⟩ := h.counter
  exact (lt_window_iff h 0).2 (by omega)

/-- From a window start, W CYCLEs answer W - 1 times READY 0, then READY 1, and restart `C` (R107, R121). -/
theorem runCycles_of_eq_window {s : State} {scans : List Nat} (h : StateInv s) (hr : s.rst = false) (hc : s.c = 0)
    (hlen : scans.length = s.cfg.window) :
    ∃ t, runCycles scans s = .next t ∧ t.c = 0 ∧
      t.responses = ⟨.ok, 0, true⟩ :: (List.replicate (s.cfg.window - 1) ⟨.ok, 0, false⟩ ++ s.responses) := by
  have hwindow := window_pos h
  obtain rfl | ⟨vs, v, rfl⟩ := List.eq_nil_or_concat' scans
  · exact absurd hlen hwindow.ne
  rw [List.length_append, List.length_singleton] at hlen
  obtain ⟨a, ha, hsampled, -⟩ := runCycles_of_lt_window (scans := vs) h hr hc (by omega)
  have hn : NoCountAtLimit { a with scan := v } :=
    noCountAtLimit_of_inv (hsampled.inv.with_ports v a.pending a.responses a.draws)
  have hlast := exec_cycle_of_due hn (hsampled.budgetDue h hc hlen)
  refine ⟨_, by rw [runCycles_append _ ha, runCycles, hlast]; rfl, by simp, ?_⟩
  simp [hsampled.responses, ← hlen]

/-- Settles O27: fewer than W CYCLEs only sample, and the last one of W assesses. -/
theorem windowHasExactlyWCycles : Obligations.WindowHasExactlyWCycles := by
  refine ⟨fun s scans h hr hc hlen => ?_, fun s scans h hr hc hlen => runCycles_of_eq_window h hr hc hlen,
    fun p hmax hstep => by simp [Params.window, hmax, hstep], fun p hmax hstep => by simp [Params.window, hmax, hstep]⟩
  obtain ⟨t, ht, hsampled, -⟩ := runCycles_of_lt_window h hr hc hlen
  exact ⟨t, ht, by simpa [hc] using hsampled.counter, hsampled.responses⟩

/-- R108: the CYCLEs of this window, the one about to run included, are at most W, and a count is at most their number. -/
theorem countWithThis_le_window {s : State} (h : StateInv s) {k : Nat} (hk : k ∈ keys s.cfg.n) :
    countWithThis s k ≤ s.cfg.window := by
  obtain ⟨⟨j, hj⟩, hlt⟩ := h.counter
  obtain ⟨-, -, hstep, -⟩ := h.legal
  rw [Nat.mul_comm] at hj
  have hwindow : j < s.cfg.window := (lt_window_iff h j).2 (hj ▸ hlt)
  have hcount : countWithThis s k * s.cfg.step ≤ (j + 1) * s.cfg.step := by
    rw [Nat.add_one_mul, ← hj]
    exact countWithThis_mul_step_le h hk
  have hle : countWithThis s k ≤ j + 1 := Nat.le_of_mul_le_mul_right hcount (by omega)
  omega

/-- The turns of keys none of which is judged pressed append nothing (R124, R125). -/
theorem foldl_assessKey_of_not_pressed {ks : List Nat} (hnodup : ks.Nodup) {s : State}
    (h : ∀ k ∈ ks, ¬pressed s.cfg (readEntry s k) = true) :
    (ks.foldl assessKey s).u = s.u ∧ (ks.foldl assessKey s).buf = s.buf := by
  induction ks generalizing s with
  | nil => exact ⟨rfl, rfl⟩
  | cons k ks ih =>
    obtain ⟨hk, hnodup⟩ := List.nodup_cons.1 hnodup
    obtain ⟨hfirst, hrest⟩ := List.forall_mem_cons.1 h
    have hturn : assessKey s k = writeEntry k clearedEntry s := by rw [assessKey, if_neg hfirst]
    rw [List.foldl_cons, hturn]
    refine ih hnodup fun j hj => ?_
    rw [readEntry_writeEntry, if_neg (ne_of_mem_of_not_mem hj hk)]
    exact hrest j hj

/-- An assessing CYCLE appends nothing where no count exceeds the threshold (R124, R128). -/
theorem assess_sampleKeys_of_counts_le {s : State} (hn : NoCountAtLimit s)
    (hle : ∀ k ∈ keys s.cfg.n, countWithThis s k ≤ s.cfg.sampleThreshold) :
    (assess (sampleKeys s)).u = s.u ∧ (assess (sampleKeys s)).buf = s.buf := by
  have h := foldl_assessKey_of_not_pressed (keys_nodup s.cfg.n) (s := setCounter 0 (sampleKeys s)) fun k hk => by
    rw [setCounter_cfg, sampleKeys_cfg, readEntry_setCounter, pressed_iff, count_sampleKeys hn hk]
    exact Nat.not_lt.2 (hle k hk)
  rw [assess, sampleKeys_cfg]
  simpa using h

/-- Settles O25: no count exceeds W, so where W is within the threshold no key is judged pressed. -/
theorem windowTooShortReportsNoPress : Obligations.WindowTooShortReportsNoPress := by
  refine ⟨fun s h k h1 hk => countWithThis_le_window h (mem_keys.2 ⟨h1, hk⟩), fun s h hshort => ?_,
    fun p hstep hmax hthreshold => by simp [Params.window, hstep, hmax, hthreshold]⟩
  have hn := noCountAtLimit_of_inv h
  have hle : ∀ k ∈ keys s.cfg.n, countWithThis s k ≤ s.cfg.sampleThreshold :=
    fun k hk => (countWithThis_le_window h hk).trans hshort
  by_cases hd : BudgetDue s
  · obtain ⟨hu, hbuf⟩ := assess_sampleKeys_of_counts_le hn hle
    refine ⟨_, exec_cycle_of_due hn hd, hu, hbuf, fun _ k h1 hk => ?_⟩
    have hmem : k ∈ keys s.cfg.n := mem_keys.2 ⟨h1, hk⟩
    rw [readEntry_respond, readEntry_assess_sampleKeys hn hmem, if_neg (Nat.not_lt.2 (hle k hmem))]
  · exact ⟨_, exec_cycle_of_not_due hn hd, by simp, by simp, fun hdue => absurd hdue hd⟩

end Sys2Proof.Machine
end

section
/-! The assessment of a CYCLE that reaches its budget (R103, R104, R120 to R126): the table, and the appends. -/

namespace Sys2Proof.Machine

/-- Settles O19, entry by entry: keys of 1..N by their count, the other entries not at all; the frame is the one of the
raw-count update with the one of the assessment. -/
theorem assessingCycleRewritesTheTable : Obligations.AssessingCycleRewritesTheTable := by
  intro s hn hd
  refine ⟨_, exec_cycle_of_due hn hd, ?keys, ?outside, assess_c _, ?frame⟩
  case keys => exact fun k h1 hk => readEntry_assess_sampleKeys hn (mem_keys.2 ⟨h1, hk⟩)
  case outside =>
    intro k hk
    refine readEntry_assess_sampleKeys_of_not_mem fun hm => ?_
    have := mem_keys.1 hm
    omega
  case frame =>
    obtain ⟨m, hm⟩ := sampleKeys_eq s
    obtain ⟨t, v, b, ha⟩ := assess_eq (sampleKeys s)
    rw [ha, hm]
    rfl

/-- The pressed keys are in strictly ascending order, as `keys` is (R126). -/
theorem pressedKeys_pairwise_lt (s : State) : (pressedKeys s).Pairwise (· < ·) :=
  (keys_ascending s.cfg.n).filter _

/-- The pressed keys are the keys of 1..N whose count exceeds the threshold (R122). -/
theorem mem_pressedKeys {s : State} {k : Nat} :
    k ∈ pressedKeys s ↔ 1 ≤ k ∧ k ≤ s.cfg.n ∧ s.cfg.sampleThreshold < countWithThis s k := by
  rw [pressedKeys, List.mem_filter, mem_keys, decide_eq_true_iff, and_assoc]

/-- An assessing CYCLE appends the pressed keys to the buffer (R125, R126). -/
theorem appended_assess_sampleKeys {s : State} (hb : s.cfg.b ≤ 65535) (hn : NoCountAtLimit s) :
    Appended s (assess (sampleKeys s)) (pressedKeys s) := by
  have h := assess_appended (sampleKeys s) (by rwa [sampleKeys_cfg])
  rw [judgedKeys_sampleKeys hn] at h
  obtain ⟨hused, hstored, hkept⟩ := h
  simp only [sampleKeys_cfg, sampleKeys_u, readSlot_sampleKeys] at hused hstored hkept
  exact ⟨hused, hstored, hkept⟩

/-- Settles O20: the appends in order, each of them a key of 1..N, which fits in a slot. -/
theorem assessingCycleAppendsPressedKeys : Obligations.AssessingCycleAppendsPressedKeys := by
  intro s hlegal hn hd
  obtain ⟨⟨-, hkeys⟩, hb, -⟩ := hlegal
  obtain ⟨hused, hstored, hkept⟩ := appended_assess_sampleKeys hb hn
  refine ⟨pressedKeys_pairwise_lt s, fun _ => mem_pressedKeys, _, exec_cycle_of_due hn hd, hused, fun i hi => ?_, hkept⟩
  have hlt : i < (pressedKeys s).length := hi.trans_le (Nat.min_le_left _ _)
  have hget : (pressedKeys s)[i]? = some (pressedKeys s)[i] := List.getElem?_eq_getElem hlt
  obtain ⟨-, hle, -⟩ := mem_pressedKeys.1 (List.getElem_mem hlt)
  refine ⟨_, hget, BitVec.ofNat 16 (pressedKeys s)[i], ?_, ?_⟩
  · rw [readSlot_respond, hstored i hi, hget, Option.map_some]
  · rw [BitVec.toNat_ofNat, Nat.mod_eq_of_lt (by omega)]

/-- A key's turn leaves a full buffer (R125). -/
theorem assessKey_of_full {s : State} (hfull : s.cfg.b ≤ s.u.toNat) (k : Nat) :
    (assessKey s k).u = s.u ∧ (assessKey s k).buf = s.buf := by
  obtain ⟨-, hdrop⟩ := (appendKey_cases k s).resolve_left fun ⟨hroom, _⟩ => Nat.not_lt.2 hfull hroom
  rw [assessKey, hdrop]
  split_ifs
  exacts [⟨rfl, rfl⟩, ⟨rfl, rfl⟩]

/-- The turns of any keys leave a full buffer, by induction on the keys: it stays full (R125). -/
theorem foldl_assessKey_of_full (ks : List Nat) {s : State} (hfull : s.cfg.b ≤ s.u.toNat) :
    (ks.foldl assessKey s).u = s.u ∧ (ks.foldl assessKey s).buf = s.buf := by
  induction ks generalizing s with
  | nil => exact ⟨rfl, rfl⟩
  | cons k ks ih =>
    obtain ⟨hu, hbuf⟩ := assessKey_of_full hfull k
    obtain ⟨hu', hbuf'⟩ := ih (s := assessKey s k) (by rwa [assessKey_cfg, hu])
    exact ⟨hu'.trans hu, hbuf'.trans hbuf⟩

/-- An assessing CYCLE leaves a full buffer (R125, R145). -/
theorem assess_sampleKeys_of_full {s : State} (hfull : s.cfg.b ≤ s.u.toNat) :
    (assess (sampleKeys s)).u = s.u ∧ (assess (sampleKeys s)).buf = s.buf := by
  have h := foldl_assessKey_of_full (keys (sampleKeys s).cfg.n) (s := setCounter 0 (sampleKeys s)) (by simpa using hfull)
  rw [assess]
  simpa using h

/-- Settles O21: the buffer stays full, and the table rewrite does not look at it. -/
theorem fullBufferDropsSilently : Obligations.FullBufferDropsSilently := by
  intro s hn hd hfull
  obtain ⟨hu, hbuf⟩ := assess_sampleKeys_of_full hfull
  refine ⟨_, exec_cycle_of_due hn hd, hu, hbuf, by simp, fun k h1 hk hpressed => ?_⟩
  rw [readEntry_respond, readEntry_assess_sampleKeys hn (mem_keys.2 ⟨h1, hk⟩), if_pos hpressed]

/-- Settles O22: no key is judged pressed, so each turn clears its entry and appends nothing. -/
theorem assessmentWithoutPressAppendsNothing : Obligations.AssessmentWithoutPressAppendsNothing := by
  intro s hn hd hle
  obtain ⟨hu, hbuf⟩ := assess_sampleKeys_of_counts_le hn fun k hk => by
    obtain ⟨h1, hkn⟩ := mem_keys.1 hk
    exact hle k h1 hkn
  refine ⟨_, exec_cycle_of_due hn hd, hu, hbuf, fun k h1 hk => ?_⟩
  rw [readEntry_respond, readEntry_assess_sampleKeys hn (mem_keys.2 ⟨h1, hk⟩), if_neg (Nat.not_lt.2 (hle k h1 hk))]

end Sys2Proof.Machine
end

section
/-! The output buffer commands RDUSED, RDBUF and CLRUSED (R140 to R142). -/

namespace Sys2Proof.Machine

/-- A command with an index has the words whose `RSV` is 0, and `ARG` is its index (R72, R73). -/
theorem indexEncoding_opcode {op : Nat} {f : Half → Instr} (hop : ∀ a, (opcode (f a)).toNat = op)
    (harg : ∀ a, operand (f a) = a) : IndexEncoding op f := by
  intro w hw
  constructor
  · intro hrsv
    refine decode_eq_ok_iff.2 ⟨BitVec.eq_of_toNat_eq ?_, (rsvField_eq_zero w).2 hrsv, ?_⟩
    · rw [opField_toNat, hw, hop]
    · rw [harg, argField_eq_ofNat]
  · intro hrsv
    exact (decode_error_iff w).2 (.inr (.inl hrsv))

/-- RDUSED where `U` is `v` (R140). -/
theorem exec_rdused_of_used {s : State} {v : Half} (h : s.u = v) : exec .rdused s = .next (respond .ok v false s) := by
  rw [← h]
  rfl

/-- CLRUSED (R142). -/
theorem exec_clrused (s : State) : exec .clrused s = .next (respond .ok 0 false (setUsed 0 s)) := rfl

/-- RDBUF of a slot that holds no value draws its answer (R141, log 7). -/
theorem exec_rdbuf_of_empty_slot {s : State} {i : Half} (hi : i.toNat < s.cfg.b) (hv : readSlot s i.toNat = none) :
    exec (.rdbuf i) s = .next (respond .ok (drawnValue s) false (countDraw s)) := by
  have hin : inBuffer s (indexOf i) = true := (inBuffer_iff _ _).2 hi
  have hanswer : answerSlot (indexOf i) s = respond .ok (drawnValue s) false (countDraw s) := by
    rw [answerSlot, show readSlot s (indexOf i) = none from hv]
  rw [exec, execRdbuf, if_pos hin, hanswer]

/-- RDBUF from `B` on (R141, R201). -/
theorem exec_rdbuf_out_of_range {s : State} {i : Half} (hi : s.cfg.b ≤ i.toNat) :
    exec (.rdbuf i) s = .next (respond .range 0 false s) := by
  have hout : ¬inBuffer s (indexOf i) = true := fun h => Nat.not_lt.2 hi ((inBuffer_iff _ _).1 h)
  rw [exec, execRdbuf, if_neg hout, raiseError_eq]

/-- No CYCLE changes `U` of a full buffer: below the budget it appends nothing, and at the budget every append is dropped
(R125, R145). -/
theorem exec_cycle_used_of_full {s t : State} (hfull : s.cfg.b ≤ s.u.toNat) (h : exec .cycle s = .next t) :
    t.u = s.u := by
  obtain ⟨hi, -⟩ | ⟨-, -, -, rfl⟩ | ⟨-, -, -, rfl⟩ := exec_cases h
  · exact absurd rfl hi
  · simp
  · obtain ⟨hu, -⟩ := assess_sampleKeys_of_full hfull
    exact hu

/-- Settles O14: the answer is `U`, so each corner case is what reset, CLRUSED or a CYCLE with a full buffer leaves there. -/
theorem rdusedAnswersTheUsedLength : Obligations.RdusedAnswersTheUsedLength := by
  refine ⟨noOperandEncoding_opcode (i := .rdused) rfl (by decide), fun s => exec_rdused_of_used rfl,
    fun p => exec_rdused_of_used (s := State.resetWith p) rfl, ?resetPulse, ?cleared, ?full⟩
  case resetPulse =>
    intro s rest hp
    obtain ⟨t, hrun, -, -, hu, -⟩ := resetPulseLeavesResetState s rest hp
    exact ⟨t, hrun, exec_rdused_of_used hu⟩
  case cleared =>
    intro s t h
    obtain rfl := Host.Outcome.next.inj ((exec_clrused s).symm.trans h)
    exact exec_rdused_of_used rfl
  case full =>
    intro s hb
    have hu : s.u = BitVec.ofNat 16 s.cfg.b := by rw [← hb, BitVec.ofNat_toNat, BitVec.setWidth_eq]
    exact ⟨exec_rdused_of_used hu, fun t h => exec_rdused_of_used ((exec_cycle_used_of_full hb.ge h).trans hu)⟩

/-- Settles O15, by RDBUF's three cases: a held slot, an empty one, and an index from `B` on. -/
theorem rdbufAnswersTheSlot : Obligations.RdbufAnswersTheSlot :=
  ⟨indexEncoding_opcode (fun _ => rfl) (fun _ => rfl), fun _ _ _ hi hv => exec_rdbuf_of_slot hi hv,
    fun _ _ hi hv => ⟨_, exec_rdbuf_of_empty_slot hi hv⟩, fun _ _ hi => exec_rdbuf_out_of_range hi⟩

/-- Settles O16: CLRUSED stores 0 in `U` and responds. -/
theorem clrusedResetsTheUsedLengthOnly : Obligations.ClrusedResetsTheUsedLengthOnly :=
  ⟨noOperandEncoding_opcode (i := .clrused) rfl (by decide), exec_clrused⟩

end Sys2Proof.Machine
end

section
/-! The commands NOP, RDTBL and RDCYC (R160 to R162). -/

namespace Sys2Proof.Machine

/-- RDATA of a byte is the byte's number (R53). -/
theorem zext16_eq_ofNat (v : Byte) : zext16 v = BitVec.ofNat 16 v.toNat := (BitVec.ofNat_toNat 16 v).symm

/-- RDTBL up to `N` (R161). -/
theorem exec_rdtbl_of_le {s : State} {k : Half} (hk : k.toNat ≤ s.cfg.n) :
    exec (.rdtbl k) s = .next (respond .ok (BitVec.ofNat 16 (readEntry s k.toNat).toNat) false s) := by
  have hin : inTable s (indexOf k) = true := (inTable_iff _ _).2 hk
  rw [exec, execRdtbl, if_pos hin, zext16_eq_ofNat, indexOf]

/-- RDTBL above `N` (R161, R201). -/
theorem exec_rdtbl_out_of_range {s : State} {k : Half} (hk : s.cfg.n < k.toNat) :
    exec (.rdtbl k) s = .next (respond .range 0 false s) := by
  have hout : ¬inTable s (indexOf k) = true := fun h => Nat.not_le.2 hk ((inTable_iff _ _).1 h)
  rw [exec, execRdtbl, if_neg hout, raiseError_eq]

/-- RDTBL of the reserved entry, which is in range and reads 0x00 under the invariant (R25). -/
theorem StateInv.exec_rdtbl_zero {s : State} (h : StateInv s) : exec (.rdtbl 0) s = .next (respond .ok 0 false s) := by
  have hentry : readEntry s (0 : Half).toNat = 0 := readEntry_zero_of_inv h
  rw [exec_rdtbl_of_le (k := 0) (Nat.zero_le _), hentry]
  rfl

/-- RDCYC (R162). -/
theorem exec_rdcyc (s : State) : exec .rdcyc s = .next (respond .ok (BitVec.ofNat 16 s.c.toNat) false s) := by
  rw [exec, execRdcyc, zext16_eq_ofNat]

/-- Under the invariant `C` is one of 0, STEP, 2·STEP, … below MAX_SAMPLES (R34 item 1). -/
theorem StateInv.counter_eq_mul_step {s : State} (h : StateInv s) :
    ∃ j, s.c.toNat = j * s.cfg.step ∧ j * s.cfg.step < s.cfg.maxSamples := by
  obtain ⟨hdvd, hlt⟩ := h.counter
  obtain ⟨j, hj⟩ := exists_eq_mul_left_of_dvd hdvd
  exact ⟨j, hj, hj ▸ hlt⟩

/-- Settles O12, by RDTBL's cases: an entry up to `N`, an index above it, and the reserved entry. -/
theorem rdtblAnswersTheEntry : Obligations.RdtblAnswersTheEntry :=
  ⟨indexEncoding_opcode (fun _ => rfl) (fun _ => rfl), fun _ _ hk => exec_rdtbl_of_le hk,
    fun _ _ hk => exec_rdtbl_out_of_range hk, fun _ h => h.exec_rdtbl_zero⟩

/-- Settles O13: RDCYC answers `C`, and the invariant bounds it. -/
theorem rdcycAnswersTheCounter : Obligations.RdcycAnswersTheCounter :=
  ⟨noOperandEncoding_opcode (i := .rdcyc) rfl (by decide), exec_rdcyc, fun _ h => h.counter_eq_mul_step⟩

/-- Settles O11: NOP does nothing but respond. -/
theorem nopAnswersOkOnly : Obligations.NopAnswersOkOnly :=
  ⟨noOperandEncoding_opcode (i := .nop) rfl (by decide), fun _ => rfl⟩

end Sys2Proof.Machine
end

section
/-! The answers to illegal words and to indexes out of range (R202), and the step between commands (R209). -/

namespace Sys2Proof.Machine

/-- An accepted word that decodes to no command (R202). -/
theorem step_of_illegal {s : State} {w : CmdWord} {v : Nat} {rest : List HostAction} {e : Illegal} (hr : s.rst = false)
    (hp : s.pending = .command w v :: rest) (he : decode w = .error e) :
    step s = .next (respond .illegal 0 false { s with pending := rest, scan := v }) := by
  rw [step_of_accepted hr hp, he, raiseError_eq]

/-- Settles O6, by R202's three errors: an illegal word, RDTBL above `N`, and RDBUF from `B` on. Each is one `respond`,
which changes nothing else. -/
theorem errorResponsesChangeNothing : Obligations.ErrorResponsesChangeNothing :=
  ⟨fun _ _ _ _ _ => step_of_illegal, fun _ _ => exec_rdtbl_out_of_range, fun _ _ => exec_rdbuf_out_of_range⟩

/-- Settles O7: the step finds no action on the ports. -/
theorem idleStepChangesNothing : Obligations.IdleStepChangesNothing := fun _ => step_of_idle

end Sys2Proof.Machine
end

section
/-! A word presented while `rst` is asserted (R220). -/

namespace Sys2Proof.Machine

/-- Settles O9: while `rst` is asserted the step drops the word and hands none of it to the decoder. -/
theorem assertedResetAcceptsNoCommand : Obligations.AssertedResetAcceptsNoCommand := fun _ _ _ _ => step_of_held

end Sys2Proof.Machine
end
